-- ==== Sys2Proof/Word.lean ====
section
/-! DEFINITION. The word types of the engine (rules R7, R9): every value is unsigned. -/

namespace Sys2Proof

/-- A byte: stream data, a cell of BUF, a digest byte, a character code. -/
abbrev Byte := BitVec 8

/-- WORD of R7: chaining words, message words, working registers, round constants. -/
abbrev Word := BitVec 32

/-- A word of the command port and of the response port: CMD_WIDTH and RSP_WIDTH of R7. -/
abbrev PortWord := BitVec 16

/-- The bit count LEN: LEN_WIDTH of R7. -/
abbrev BitCount := BitVec 64

/-- An index of BUF and a value of BUFLEN, 0..63 (R12, R20). -/
abbrev BufIndex := BitVec 6

end Sys2Proof
end

