-- ==== Sys2Proof/Config.lean ====
section
/-! DEFINITION. What this hardware fixes by name: the lifecycle phases (R27) and the fault codes (R221).

The parameters of R7 stand in the types and the operations. Of the open parameters of R8, N_INSTANCES is the length of
a `Machine.Platform`, and LATENCY and CMD_PORT_BASE are not modelled (log 10). No rule leaves a value undefined after a
command, so there is no free value here. -/

namespace Sys2Proof

/-- The lifecycle phase PHASE (R27). Its value 3 never occurs and is no constructor (log 6). -/
inductive Phase where
  /-- Code 0: no stream exists. -/
  | idle
  /-- Code 1: a stream is being absorbed. -/
  | active
  /-- Code 2: the stream was consumed by FINALIZE and the digest is readable. -/
  | finalized
deriving DecidableEq, Repr

/-- The five fault codes (R221, R222). Codes 6 and 7 are never produced and are no constructors (log 6). -/
inductive FaultCode where
  /-- Code 1: the word encodes no command. -/
  | illegalCommand
  /-- Code 2: a legal command with an index out of range. -/
  | badArgument
  /-- Code 3: a stream operation with no stream (phase IDLE). -/
  | noStream
  /-- Code 4: a stream operation on a finalized stream. -/
  | streamConsumed
  /-- Code 5: a digest read before FINALIZE. -/
  | digestNotReady
deriving DecidableEq, Repr

end Sys2Proof
end

