-- ==== Sys2Proof/Syntax.lean ====
section
/-! DEFINITION. The commands of the engine, one constructor per row of the opcode map (R73). -/

namespace Sys2Proof

/-- A command (R15, R73). An operand is the ARG field, an unsigned byte (R71, R72). -/
inductive Instr where
  /-- R110. -/
  | nop
  /-- R111: begin a stream. -/
  | init
  /-- R112: absorb the data byte `d`. -/
  | update (d : Byte)
  /-- R113: pad, compress the tail, make the digest readable. -/
  | finalize
  /-- R180: read STATUS. -/
  | rdstat
  /-- R181: read byte `k` of LEN, legal 0..7. -/
  | rdlen (k : Byte)
  /-- R182: read digest byte `k`, legal 0..15. -/
  | rddig (k : Byte)
  /-- R203: read hex character `j`, legal 0..31. -/
  | rdhex (j : Byte)
  /-- R202: the hex character of the nibble `n`, legal 0..15. -/
  | hexdig (n : Byte)
deriving DecidableEq, Repr

end Sys2Proof
end

