-- ==== Sys2Proof/WellFormed.lean ====
section
/-! DEFINITION. Which commands have an encoding: the operand ranges of R72, compared unsigned. -/

namespace Sys2Proof

/-- The operand is within its range (R72). UPDATE takes every byte (R78). -/
def Instr.wellFormed : Instr → Bool
  | .nop => true
  | .init => true
  | .update _ => true
  | .finalize => true
  | .rdstat => true
  | .rdlen k => decide (k.toNat ≤ 7)
  | .rddig k => decide (k.toNat ≤ 15)
  | .rdhex j => decide (j.toNat ≤ 31)
  | .hexdig n => decide (n.toNat ≤ 15)

end Sys2Proof
end

