-- ==== Sys2Proof/Decode.lean ====
section
/-! DEFINITION. The command encoding (30_encoding.md): the fields (R70, R71), the decoder (R74), the encoder and the rows
of the opcode map (R73). Decoding reads the word alone. -/

namespace Sys2Proof

/-- What a word decodes to: a command or a fault (R74). -/
inductive Decoded where
  | command (i : Instr)
  | fault (c : FaultCode)
deriving DecidableEq, Repr

/-- OP = w[15:12] (R70). -/
def opField (w : PortWord) : BitVec 4 := w.extractLsb' 12 4

/-- RSV = w[11:8] (R70). -/
def rsvField (w : PortWord) : BitVec 4 := w.extractLsb' 8 4

/-- ARG = w[7:0] (R70). -/
def argField (w : PortWord) : Byte := w.extractLsb' 0 8

/-- A command whose ARG must be 0 (R77). -/
def decodeNoArg (i : Instr) (arg : Byte) : Decoded :=
  if arg = 0 then .command i else .fault .illegalCommand

/-- A command whose ARG is an index or a nibble of the range 0..`top` (R78). -/
def decodeIndexed (top : Nat) (mk : Byte → Instr) (arg : Byte) : Decoded :=
  if arg.toNat ≤ top then .command (mk arg) else .fault .badArgument

/-- The command of a word whose RSV is 0, by its opcode (R73). OP 0x9 to 0xF is reserved (R75). -/
def decodeOp (op : BitVec 4) (arg : Byte) : Decoded :=
  match op.toNat with
  | 0 => decodeNoArg .nop arg
  | 1 => decodeNoArg .init arg
  | 2 => .command (.update arg)
  | 3 => decodeNoArg .finalize arg
  | 4 => decodeNoArg .rdstat arg
  | 5 => decodeIndexed 7 .rdlen arg
  | 6 => decodeIndexed 15 .rddig arg
  | 7 => decodeIndexed 31 .rdhex arg
  | 8 => decodeIndexed 15 .hexdig arg
  | _ => .fault .illegalCommand

/-- The decoder, total on the 65,536 words (R74). A nonzero RSV is ILLEGAL_COMMAND whatever the opcode (R75, R76). -/
def decode (w : PortWord) : Decoded :=
  if rsvField w = 0 then decodeOp (opField w) (argField w) else .fault .illegalCommand

/-- The word of a command (R73): its opcode byte, then its ARG. -/
def encode : Instr → PortWord
  | .nop => 0x0000#16
  | .init => 0x1000#16
  | .update d => 0x20#8 ++ d
  | .finalize => 0x3000#16
  | .rdstat => 0x4000#16
  | .rdlen k => 0x50#8 ++ k
  | .rddig k => 0x60#8 ++ k
  | .rdhex j => 0x70#8 ++ j
  | .hexdig n => 0x80#8 ++ n

/-- The opcode of a command (the OP column of R73). -/
def Instr.opcode : Instr → Nat
  | .nop => 0
  | .init => 1
  | .update _ => 2
  | .finalize => 3
  | .rdstat => 4
  | .rdlen _ => 5
  | .rddig _ => 6
  | .rdhex _ => 7
  | .hexdig _ => 8

/-- The ARG of a command: its operand, or 0 where it takes none (R70, R77). -/
def Instr.arg : Instr → Byte
  | .nop => 0
  | .init => 0
  | .update d => d
  | .finalize => 0
  | .rdstat => 0
  | .rdlen k => k
  | .rddig k => k
  | .rdhex j => j
  | .hexdig n => n

/-- A row of the opcode map (R73): its opcode, match, mask and largest legal ARG. -/
structure OpcodeRow where
  op : Nat
  pattern : PortWord
  mask : PortWord
  argMax : Nat
deriving DecidableEq, Repr

/-- The nine rows of R73, as its table and opcode_table.json give them. -/
def opcodeRows : List OpcodeRow :=
  [ ⟨0x0, 0x0000#16, 0xFFFF#16, 0⟩,
    ⟨0x1, 0x1000#16, 0xFFFF#16, 0⟩,
    ⟨0x2, 0x2000#16, 0xFF00#16, 255⟩,
    ⟨0x3, 0x3000#16, 0xFFFF#16, 0⟩,
    ⟨0x4, 0x4000#16, 0xFFFF#16, 0⟩,
    ⟨0x5, 0x5000#16, 0xFF00#16, 7⟩,
    ⟨0x6, 0x6000#16, 0xFF00#16, 15⟩,
    ⟨0x7, 0x7000#16, 0xFF00#16, 31⟩,
    ⟨0x8, 0x8000#16, 0xFF00#16, 15⟩ ]

/-- "A word selects a row when (w & mask) = match" (R73). -/
def OpcodeRow.selects (r : OpcodeRow) (w : PortWord) : Bool := decide (w &&& r.mask = r.pattern)

/-- The port word of an instruction given as `nbits` bits: the bits above `nbits` are 0, and a command is one 16-bit word
(R80), so bits above 15 are no part of it (log 14). -/
def tableWord (nbits w : Nat) : PortWord := BitVec.ofNat 16 (w % 2 ^ nbits)

/-- What the decoder reads from an instruction numbered as spec/opcode_table.json numbers its bits. -/
def decodeTableWord (nbits w : Nat) : Option Instr :=
  match decode (tableWord nbits w) with
  | .command i => some i
  | .fault _ => none

end Sys2Proof
end

