-- ==== Sys2Proof/Machine/State.lean ====
section
/-! DEFINITION. The state of one engine (R20), the host's inputs, the reply, and the state after reset (R36). -/

namespace Sys2Proof.Machine

/-- Four 32-bit words A, B, C, D: the chaining value CV (R21), or the working registers of a compression (R31). -/
structure CV where
  a : Word
  b : Word
  c : Word
  d : Word
deriving DecidableEq, Repr

/-- The byte store BUF (R24) as cells (index, byte). In its canonical form (`Memory.wf`) the indices rise strictly and lie
below 64, and no cell holds 0x00, which is what an index that is not listed reads as (log 5, log 15). -/
abbrev Memory := List Host.Cell

/-- What the ports show of the command just performed (log 3). -/
inductive Reply where
  /-- No response: NOP, INIT, UPDATE, FINALIZE (R81), or no command performed since reset. -/
  | none
  /-- The 16-bit response word of a read command (R81). -/
  | response (v : PortWord)
  /-- The command was a fault outcome (R224, R229) and no response was returned. -/
  | fault (c : FaultCode)
deriving DecidableEq, Repr

/-- What the host can do to the engine between two commands, and the two uses the spec says the model refuses. -/
inductive HostInput where
  /-- A command word of the port's one issuer (R15, R63). -/
  | command (w : PortWord)
  /-- The reset input, between commands (R85, R260, R261). -/
  | reset
  /-- A command word interleaved by a second issuer (R63). -/
  | foreignCommand (w : PortWord)
  /-- The reset input arriving while the command `w` is performed (R261). -/
  | resetDuring (w : PortWord)
deriving DecidableEq, Repr

/-- The state of one engine: the elements of R20, and the model's own `reply` and `port`. -/
structure State where
  /-- CV[0..3] (R21). -/
  cv : CV
  /-- LEN (R23). -/
  len : BitCount
  /-- BUF[0..63] (R24). -/
  buf : Memory
  /-- BUFLEN, 6 bits (R24). -/
  buflen : BufIndex
  /-- PHASE (R27). -/
  phase : Phase
  /-- ERR (R28). -/
  err : Bool
  /-- ECODE (R29): `none` is code 0, no fault since reset. -/
  ecode : Option FaultCode
  /-- The model's own: the ports after the last command (log 3). -/
  reply : Reply
  /-- The model's own: the host's inputs not yet performed, oldest first (log 2). -/
  port : List HostInput
deriving DecidableEq, Repr

/-- Why a step stops the machine for good. There is no reason: no rule gives the engine a stuck state (R267), and a
faulting command is a next state with its fault recorded (R225, R228; log 1). So no step ends in a fault, and nothing
unsafe rests on this type. -/
inductive Fault where
deriving DecidableEq, Repr

/-- Why a step has no meaning. -/
inductive Refusal where
  /-- Raised by an arm of `exec` whose instruction has no meaning yet: by none of them. Safe: the model stops. -/
  | notModelled (mnemonic : String)
  /-- Raised by the input `foreignCommand`: "The model refuses such a program" (R63; log 7). Safe: the model stops where
  the hardware, which does not detect it, goes on. -/
  | secondIssuer
  /-- Raised by the input `resetDuring`: "This spec does not model a reset that arrives during a command" (R261; log 7).
  Safe: the model stops. -/
  | resetDuringCommand
deriving DecidableEq, Repr

/-- The initial chaining value IV (R22). -/
def CV.initial : CV := ⟨0x67452301#32, 0xefcdab89#32, 0x98badcfe#32, 0x10325476#32⟩

/-- The machine right after reset (R36, R260). BUF, which R36 leaves unspecified, lists nothing (log 5). No command has
been performed and none is waiting (log 2, log 3). -/
def State.reset : State where
  cv := CV.initial
  len := 0
  buf := []
  buflen := 0
  phase := .idle
  err := false
  ecode := Option.none
  reply := .none
  port := []

end Sys2Proof.Machine
end

