-- ==== Sys2Proof/Machine/Buffer.lean ====
section
/-! DEFINITION. MemRead and MemWrite over the byte store BUF (R12, R24), and its canonical form. -/

namespace Sys2Proof.Machine

/-- The byte at a cell key: 0x00 where none is listed (log 5). -/
def Memory.lookup : Memory → Nat → Byte
  | [], _ => 0x00#8
  | (k, b) :: rest, key => if k = key then b else Memory.lookup rest key

/-- MemRead(a, 1) (R12). -/
def Memory.read (m : Memory) (a : BufIndex) : Byte := Memory.lookup m a.toNat

/-- The cells without those of one key. -/
def Memory.erase : Memory → Nat → Memory
  | [], _ => []
  | (k, b) :: rest, key => if k = key then Memory.erase rest key else (k, b) :: Memory.erase rest key

/-- The cells with one more, before the first of a larger key. -/
def Memory.place : Memory → Nat → Byte → Memory
  | [], key, x => [(key, x)]
  | (k, b) :: rest, key, x => if key < k then (key, x) :: (k, b) :: rest else (k, b) :: Memory.place rest key x

/-- MemWrite(a, 1, x) (R12). Writing 0x00 lists no cell, so the canonical form is kept. -/
def Memory.write (m : Memory) (a : BufIndex) (x : Byte) : Memory :=
  if x = 0x00#8 then Memory.erase m a.toNat else Memory.place (Memory.erase m a.toNat) a.toNat x

/-- BUF[0..n), in stream order (R24). -/
def Memory.slice (m : Memory) (n : Nat) : List Byte := (List.range n).map fun k => m.read (BitVec.ofNat 6 k)

/-- The cells from key `low` on are canonical: keys rising strictly, below 64, no cell 0x00. -/
def Memory.wfFrom : Nat → Memory → Bool
  | _, [] => true
  | low, (k, b) :: rest => decide (low ≤ k) && decide (k < 64) && decide (b ≠ 0x00#8) && Memory.wfFrom (k + 1) rest

/-- The canonical form of BUF: equal stores are equal lists. -/
def Memory.wf (m : Memory) : Bool := Memory.wfFrom 0 m

end Sys2Proof.Machine
end

