-- ==== Sys2Proof/Machine/Bytes.lean ====
section
/-! DEFINITION. Byte order, rotation and zero extension (R10, R11, R58). -/

namespace Sys2Proof.Machine

/-- Circular left rotation (R10), used with amounts 4..23 only (R147). -/
def rotl32 (x : Word) (amount : Nat) : Word := (x <<< amount) ||| (x >>> (32 - amount))

/-- Byte `k` of a value, the least significant being byte 0: `v[8k+7 : 8k]` (R9). -/
def byteOf {n : Nat} (v : BitVec n) (k : Nat) : Byte := v.extractLsb' (8 * k) 8

/-- `le32(s, i)` (R11): the little-endian word at byte `i` of `s`. -/
def le32 (s : List Byte) (i : Nat) : Word :=
  (s.getD i 0).setWidth 32 ||| (s.getD (i + 1) 0).setWidth 32 <<< 8
    ||| (s.getD (i + 2) 0).setWidth 32 <<< 16 ||| (s.getD (i + 3) 0).setWidth 32 <<< 24

/-- `le32bytes(w)` (R11). -/
def le32bytes (w : Word) : List Byte := [byteOf w 0, byteOf w 1, byteOf w 2, byteOf w 3]

/-- `le64bytes(v)` (R11): 8 bytes, least significant first. -/
def le64bytes (v : BitCount) : List Byte :=
  [byteOf v 0, byteOf v 1, byteOf v 2, byteOf v 3, byteOf v 4, byteOf v 5, byteOf v 6, byteOf v 7]

/-- `zeros(n)` (R11). -/
def zeros (n : Nat) : List Byte := List.replicate n 0x00#8

/-- `zext_16(v)` (R81): bits 15:8 are 0. -/
def zext16 (v : Byte) : PortWord := v.setWidth 16

end Sys2Proof.Machine
end

