-- ==== Sys2Proof/Machine/Compress.lean ====
section
/-! DEFINITION. The compression transform (41_compression.md). The ROM tables and the `+B` term are the spec's rules, which
the spec marks as general knowledge (R143, R145, R147, R148; log 16). -/

namespace Sys2Proof.Machine

/-- The bitwise function of the stage that round `i` belongs to (R141). -/
def stageFn (i : Nat) (b c d : Word) : Word :=
  if i < 16 then (b &&& c) ||| (~~~b &&& d)
  else if i < 32 then (b &&& d) ||| (c &&& ~~~d)
  else if i < 48 then b ^^^ c ^^^ d
  else c ^^^ (b ||| ~~~d)

/-- T[0..15] (R145). -/
def romT1 : List Word :=
  [0xd76aa478#32, 0xe8c7b756#32, 0x242070db#32, 0xc1bdceee#32, 0xf57c0faf#32, 0x4787c62a#32, 0xa8304613#32, 0xfd469501#32,
   0x698098d8#32, 0x8b44f7af#32, 0xffff5bb1#32, 0x895cd7be#32, 0x6b901122#32, 0xfd987193#32, 0xa679438e#32, 0x49b40821#32]

/-- T[16..31] (R145). -/
def romT2 : List Word :=
  [0xf61e2562#32, 0xc040b340#32, 0x265e5a51#32, 0xe9b6c7aa#32, 0xd62f105d#32, 0x02441453#32, 0xd8a1e681#32, 0xe7d3fbc8#32,
   0x21e1cde6#32, 0xc33707d6#32, 0xf4d50d87#32, 0x455a14ed#32, 0xa9e3e905#32, 0xfcefa3f8#32, 0x676f02d9#32, 0x8d2a4c8a#32]

/-- T[32..47] (R145). -/
def romT3 : List Word :=
  [0xfffa3942#32, 0x8771f681#32, 0x6d9d6122#32, 0xfde5380c#32, 0xa4beea44#32, 0x4bdecfa9#32, 0xf6bb4b60#32, 0xbebfbc70#32,
   0x289b7ec6#32, 0xeaa127fa#32, 0xd4ef3085#32, 0x04881d05#32, 0xd9d4d039#32, 0xe6db99e5#32, 0x1fa27cf8#32, 0xc4ac5665#32]

/-- T[48..63] (R145). -/
def romT4 : List Word :=
  [0xf4292244#32, 0x432aff97#32, 0xab9423a7#32, 0xfc93a039#32, 0x655b59c3#32, 0x8f0ccc92#32, 0xffeff47d#32, 0x85845dd1#32,
   0x6fa87e4f#32, 0xfe2ce6e0#32, 0xa3014314#32, 0x4e0811a1#32, 0xf7537e82#32, 0xbd3af235#32, 0x2ad7d2bb#32, 0xeb86d391#32]

/-- The round constant T[i] (R145). -/
def romT (i : Nat) : Word := (romT1 ++ romT2 ++ romT3 ++ romT4).getD i 0

/-- The rotation amount S[i] (R147). -/
def romS (i : Nat) : Nat :=
  if i < 16 then [7, 12, 17, 22].getD (i % 4) 0
  else if i < 32 then [5, 9, 14, 20].getD (i % 4) 0
  else if i < 48 then [4, 11, 16, 23].getD (i % 4) 0
  else [6, 10, 15, 21].getD (i % 4) 0

/-- The message-word index K[i] (R148). -/
def romK (i : Nat) : Nat :=
  if i < 16 then i
  else if i < 32 then (5 * i + 1) % 16
  else if i < 48 then (3 * i + 5) % 16
  else (7 * i) % 16

/-- M[0..15] of a block (R52): `M[j] = le32(block, 4*j)`. -/
def messageWords (block : List Byte) : List Word := (List.range 16).map fun j => le32 block (4 * j)

/-- Round `i` on the working registers (R143). Every input is the old one (R144). -/
def roundStep (m : List Word) (w : CV) (i : Nat) : CV :=
  let f := stageFn i w.b w.c w.d
  let t := rotl32 (w.a + f + m.getD (romK i) 0 + romT i) (romS i)
  ⟨w.d, w.b + t, w.b, w.c⟩

/-- The 64 rounds, in order, no early exit (R149). -/
def rounds (m : List Word) (w : CV) : CV := (List.range 64).foldl (roundStep m) w

/-- The feed-forward of R149: each word mod 2^32. -/
def CV.add (x y : CV) : CV := ⟨x.a + y.a, x.b + y.b, x.c + y.c, x.d + y.d⟩

/-- `compress(cv, block)` (R140, R149). -/
def compress (cv : CV) (block : List Byte) : CV := cv.add (rounds (messageWords block) cv)

/-- `for k in 0 .. len(tail)/64 - 1: CV <- compress(CV, tail[64k .. 64k+64))` (R106). -/
def compressBlocks (cv : CV) (tail : List Byte) : CV :=
  (List.range (tail.length / 64)).foldl (fun acc k => compress acc ((tail.drop (64 * k)).take 64)) cv

end Sys2Proof.Machine
end

