-- ==== Sys2Proof/Machine/Flags.lean ====
section
/-! DEFINITION. The only flags ERR and ECODE (R37): their codes and the view STATUS (R30). -/

namespace Sys2Proof

/-- The code of a phase in STATUS[7:6] (R27). -/
def Phase.code : Phase → BitVec 2
  | .idle => 0
  | .active => 1
  | .finalized => 2

/-- The code of a fault in ECODE (R221). -/
def FaultCode.code : FaultCode → BitVec 3
  | .illegalCommand => 1
  | .badArgument => 2
  | .noStream => 3
  | .streamConsumed => 4
  | .digestNotReady => 5

end Sys2Proof

namespace Sys2Proof.Machine

/-- ECODE as 3 bits: 0 is no fault since reset (R29, R221). -/
def ecodeBits : Option FaultCode → BitVec 3
  | Option.none => 0
  | some c => c.code

/-- ERR as 1 bit (R28). -/
def errBit (e : Bool) : BitVec 1 := if e then 1 else 0

/-- STATUS = ERR << 15 | ECODE << 8 | PHASE << 6 | BUFLEN (R30). -/
def State.status (s : State) : PortWord :=
  (errBit s.err).setWidth 16 <<< 15 ||| (ecodeBits s.ecode).setWidth 16 <<< 8
    ||| (s.phase.code).setWidth 16 <<< 6 ||| s.buflen.setWidth 16

end Sys2Proof.Machine
end

