-- ==== Sys2Proof/Machine/Operands.lean ====
section
/-! DEFINITION. The index operands (R51, R72), the digest view of CV (R107, R183) and the hex digits (R200, R201). -/

namespace Sys2Proof.Machine

/-- BAD_ARGUMENT for an index above `top`, compared unsigned (R72, R78). -/
def argFault (top : Nat) (k : Byte) : Option FaultCode :=
  if k.toNat ≤ top then Option.none else some .badArgument

/-- `digest(CV)` (R54, R107): 16 bytes, a function of CV and no register of its own (R183). -/
def digest (cv : CV) : List Byte := le32bytes cv.a ++ le32bytes cv.b ++ le32bytes cv.c ++ le32bytes cv.d

/-- Byte `k` of the digest (R183). -/
def digestByte (cv : CV) (k : Nat) : Byte := (digest cv).getD k 0

/-- The high nibble, bits 7:4 (R55). -/
def highNibble (b : Byte) : BitVec 4 := b.extractLsb' 4 4

/-- The low nibble, bits 3:0 (R55). -/
def lowNibble (b : Byte) : BitVec 4 := b.extractLsb' 0 4

/-- `hexdigit(n)` (R200): the ASCII code of the lowercase hexadecimal digit. -/
def hexdigit (n : BitVec 4) : Byte :=
  if n.toNat ≤ 9 then BitVec.ofNat 8 (0x30 + n.toNat) else BitVec.ofNat 8 (0x61 + (n.toNat - 10))

/-- Hex character `j` of the digest by the pseudocode of R203. -/
def hexChar (cv : CV) (j : Nat) : Byte :=
  let b := digestByte cv (j / 2)
  if j % 2 = 0 then hexdigit (highNibble b) else hexdigit (lowNibble b)

end Sys2Proof.Machine
end

