-- ==== Sys2Proof/Machine/Ops.lean ====
section
/-! DEFINITION. The named operations on the state: raising a fault (60_exceptions.md), responding, the reset input, the
host's port, and the guard every command runs under (R13, R226). -/

namespace Sys2Proof.Machine

/-- The result of every command. -/
abbrev Result := Host.Outcome State Fault Refusal

/-- No response (R81). -/
def State.silent (s : State) : State := { s with reply := .none }

/-- `respond(v)` (R12, R81). -/
def State.respond (s : State) (v : PortWord) : State := { s with reply := .response v }

/-- `raise Fault(code)` (R224): the fault record of R225 and nothing else. The first code since reset is kept, no response is
returned, and the engine accepts the next command (R228; log 1). -/
def State.raiseFault (s : State) (c : FaultCode) : State :=
  { s with ecode := if s.err then s.ecode else some c, err := true, reply := .fault c }

/-- The first fault among checks listed in the priority order of R226. -/
def firstFault : List (Option FaultCode) → Option FaultCode
  | [] => Option.none
  | some c :: _ => some c
  | Option.none :: rest => firstFault rest

/-- A command under its checks (R13, R226): the first that applies is raised before anything is written, else `effect`
is the next state. -/
def guarded (checks : List (Option FaultCode)) (s effect : State) : Result :=
  match firstFault checks with
  | some c => .next (s.raiseFault c)
  | Option.none => .next effect

/-- The phase check of UPDATE and FINALIZE (R222). -/
def streamFault : Phase → Option FaultCode
  | .idle => some .noStream
  | .active => Option.none
  | .finalized => some .streamConsumed

/-- The phase check of RDDIG and RDHEX (R222). -/
def digestFault : Phase → Option FaultCode
  | .idle => some .digestNotReady
  | .active => some .digestNotReady
  | .finalized => Option.none

/-- The reset input (R260): every element at its value of R36, a stream in progress and a recorded fault discarded. The
inputs that wait behind it are the host's and stay (log 9). -/
def State.resetInput (s : State) : State := { State.reset with port := s.port }

/-- The host issues an input that is performed next, before those already waiting. -/
def State.issue (s : State) (e : HostInput) : State := { s with port := e :: s.port }

/-- The next input and the state without it, or nothing where the host has issued nothing (R33, R270). -/
def fetch (s : State) : Option (HostInput × State) :=
  match s.port with
  | [] => Option.none
  | e :: rest => some (e, { s with port := rest })

/-- No command is issued: "it holds its state without limit" (R237; log 4). -/
def idleStep (s : State) : Result := .next s

end Sys2Proof.Machine
end

