-- ==== Sys2Proof/Machine/Hash.lean ====
section
/-! DEFINITION. The hash engine commands NOP, INIT, UPDATE and FINALIZE (40_hash_engine.md). -/

namespace Sys2Proof.Machine

/-- `md5_init()` loaded into the registers (R100, R111). BUF and the fault record are left as they are (R35, R28). -/
def State.startStream (s : State) : State :=
  { s with cv := CV.initial, len := 0, buflen := 0, phase := .active }

/-- `absorb1(st, x)` (R102): the byte lands at BUF[BUFLEN], LEN wraps mod 2^64 (R115), and the 64th byte of a block
compresses it and empties the buffer. -/
def State.absorb (s : State) (x : Byte) : State :=
  let filled := s.buflen.toNat + 1
  let buf := s.buf.write s.buflen x
  if filled = 64 then
    { s with buf := buf, len := s.len + 8, cv := compress s.cv (buf.slice 64), buflen := 0 }
  else
    { s with buf := buf, len := s.len + 8, buflen := BitVec.ofNat 6 filled }

/-- `z = (55 - BUFLEN) mod 64` (R104). -/
def padZeros (n : Nat) : Nat := (55 + 64 - n) % 64

/-- The padded tail (R104): the pending bytes, 0x80, z zero bytes, the length suffix of R53 and R105. -/
def State.tail (s : State) : List Byte :=
  s.buf.slice s.buflen.toNat ++ [0x80#8] ++ zeros (padZeros s.buflen.toNat) ++ le64bytes s.len

/-- `md5_finalize(st)` on the registers (R104 to R106, R113). LEN keeps the stream's bit count (R105). -/
def State.finish (s : State) : State :=
  { s with cv := compressBlocks s.cv s.tail, buflen := 0, phase := .finalized }

/-- NOP (R110): `skip`. -/
def execNop (s : State) : Result := guarded [] s s.silent

/-- INIT (R111), legal in every phase. -/
def execInit (s : State) : Result := guarded [] s s.startStream.silent

/-- UPDATE d (R112). -/
def execUpdate (d : Byte) (s : State) : Result := guarded [streamFault s.phase] s (s.absorb d).silent

/-- FINALIZE (R113). -/
def execFinalize (s : State) : Result := guarded [streamFault s.phase] s s.finish.silent

end Sys2Proof.Machine
end

