-- ==== Sys2Proof/Machine/HexFormat.lean ====
section
/-! DEFINITION. The hex digit formatter's commands HEXDIG and RDHEX (43_hex_formatter.md). -/

namespace Sys2Proof.Machine

/-- RDHEX j (R203). -/
def execRdhex (j : Byte) (s : State) : Result :=
  guarded [argFault 31 j, digestFault s.phase] s (s.respond (zext16 (hexChar s.cv j.toNat)))

/-- HEXDIG n (R202): reads no state. -/
def execHexdig (n : Byte) (s : State) : Result := guarded [argFault 15 n] s (s.respond (zext16 (hexdigit (lowNibble n))))

end Sys2Proof.Machine
end

