-- ==== Sys2Proof/Machine/Readout.lean ====
section
/-! DEFINITION. The readout commands RDSTAT, RDLEN and RDDIG (42_readout.md). -/

namespace Sys2Proof.Machine

/-- RDSTAT (R180). -/
def execRdstat (s : State) : Result := guarded [] s (s.respond s.status)

/-- RDLEN k (R181): byte k of LEN, least significant first. -/
def execRdlen (k : Byte) (s : State) : Result := guarded [argFault 7 k] s (s.respond (zext16 (byteOf s.len k.toNat)))

/-- RDDIG k (R182, R183). -/
def execRddig (k : Byte) (s : State) : Result :=
  guarded [argFault 15 k, digestFault s.phase] s (s.respond (zext16 (digestByte s.cv k.toNat)))

end Sys2Proof.Machine
end

