-- ==== Sys2Proof/Machine/Dispatch.lean ====
section
/-! DEFINITION. The meaning of each command, one arm per constructor of Instr. -/

namespace Sys2Proof.Machine

def exec (i : Instr) (s : State) : Host.Outcome State Fault Refusal :=
  match i with
  | .nop => Sys2Proof.Machine.execNop s
  | .init => Sys2Proof.Machine.execInit s
  | .update d => Sys2Proof.Machine.execUpdate d s
  | .finalize => Sys2Proof.Machine.execFinalize s
  | .rdstat => Sys2Proof.Machine.execRdstat s
  | .rdlen k => Sys2Proof.Machine.execRdlen k s
  | .rddig k => Sys2Proof.Machine.execRddig k s
  | .rdhex j => Sys2Proof.Machine.execRdhex j s
  | .hexdig n => Sys2Proof.Machine.execHexdig n s

end Sys2Proof.Machine
end

