-- ==== Sys2Proof/Machine/Perform.lean ====
section
/-! DEFINITION. Performing one input of the host: a command word (R74, R226), the reset input (R260), or one of the two uses
the spec says the model refuses (R63, R261). -/

namespace Sys2Proof.Machine

/-- A command word: decoded first, then its phase checks and its effect (R226). A word that is no command, or whose index
is out of range, faults from the word alone. -/
def performWord (w : PortWord) (s : State) : Result :=
  match decode w with
  | .command i => exec i s
  | .fault c => .next (s.raiseFault c)

/-- One input of the host. -/
def perform (e : HostInput) (s : State) : Result :=
  match e with
  | .command w => performWord w s
  | .reset => .next s.resetInput
  | .foreignCommand _ => .refused .secondIssuer
  | .resetDuring _ => .refused .resetDuringCommand

end Sys2Proof.Machine
end

