-- ==== Sys2Proof/Machine/Step.lean ====
section
/-! DEFINITION. One step: the engine takes the next input of the host and performs it (R13, R61). -/

namespace Sys2Proof.Machine

/-- One step. With nothing issued the engine holds its state (R237; log 4). -/
def step (s : State) : Host.Outcome State Fault Refusal :=
  match fetch s with
  | Option.none => idleStep s
  | some (e, t) => perform e t

/-- The state with an instruction at the head of the port, where step takes its next input (log 12). -/
def State.withFetchWord (s : State) (nbits w : Nat) : State := s.issue (.command (tableWord nbits w))

end Sys2Proof.Machine
end

