-- ==== Sys2Proof/Machine/Pseudo.lean ====
section
/-! DEFINITION. The pseudo-instructions and their expansions (R84), and the host protocol for one file (R272). -/

namespace Sys2Proof.Machine

/-- The pseudo-instructions of R84. Text is given as the codes of its characters. -/
inductive Pseudo where
  | updates (bytes : List Byte)
  | hash (text : List Byte)
  | rddigest
  | rdhexall
  | rdlenall
deriving DecidableEq, Repr

/-- A read command for each index 0..n-1, in order. -/
def eachIndex (mk : Byte → Instr) (n : Nat) : List Instr := (List.range n).map fun k => mk (BitVec.ofNat 8 k)

/-- The expansion of a pseudo-instruction (R84). It has no encoding of its own. -/
def Pseudo.expand : Pseudo → List Instr
  | .updates bytes => bytes.map .update
  | .hash text => [.init] ++ text.map .update ++ [.finalize]
  | .rddigest => eachIndex .rddig 16
  | .rdhexall => eachIndex .rdhex 32
  | .rdlenall => eachIndex .rdlen 8

/-- The command words of a list of commands, as the host issues them. -/
def issueAll (cmds : List Instr) : List HostInput := cmds.map fun i => .command (encode i)

/-- The host protocol for one file read in chunks (R272). -/
def fileProtocol (chunks : List (List Byte)) : List Instr :=
  [.init] ++ chunks.flatMap (fun c => (Pseudo.updates c).expand) ++ [.finalize] ++ Pseudo.rdhexall.expand

end Sys2Proof.Machine
end

