-- ==== Sys2Proof/Machine/Assembler.lean ====
section
/-! DEFINITION. The assembly syntax (R82, R83), the pseudo-instructions (R84) and the directive .RESET (R85): one line of
text to the inputs it stands for, or none where the line is rejected. The layout R82 and R83 leave open is log 13. -/

namespace Sys2Proof.Machine

/-- The pieces of a line. -/
inductive Token where
  /-- A mnemonic or a directive. -/
  | name (letters : List Char)
  /-- A decimal or hexadecimal number (R83). -/
  | number (n : Nat)
  /-- A character literal, standing for its code (R83). -/
  | literal (code : Nat)
  /-- A quoted text, as the codes of its characters (R84). -/
  | text (codes : List Nat)
  | comma
deriving DecidableEq, Repr

/-- Where the reader stands within a line. -/
inductive LexMode where
  | between
  | inName (letters : List Char)
  | inLiteral
  | literalEnd (code : Nat)
  | inText (codes : List Nat)
deriving DecidableEq, Repr

/-- "0x20 to 0x7E only" (R83). -/
def isPrintable (c : Char) : Bool := decide (0x20 ≤ c.toNat) && decide (c.toNat ≤ 0x7E)

/-- The value of a digit character, hexadecimal letters of either case (log 13). -/
def digitValue (c : Char) : Nat :=
  if 0x30 ≤ c.toNat ∧ c.toNat ≤ 0x39 then c.toNat - 0x30
  else if 0x61 ≤ c.toNat ∧ c.toNat ≤ 0x66 then c.toNat - 0x61 + 10
  else if 0x41 ≤ c.toNat ∧ c.toNat ≤ 0x46 then c.toNat - 0x41 + 10
  else 16

/-- The number that digits of one base write, read from `acc`: none where a character is no digit of the base. -/
def readDigits (base : Nat) : Nat → List Char → Option Nat
  | acc, [] => some acc
  | acc, c :: rest => if digitValue c < base then readDigits base (acc * base + digitValue c) rest else none

/-- A run of characters as a token: a number where it begins with a digit (R83), else a name. -/
def nameToken (letters : List Char) : Option Token :=
  match letters with
  | [] => none
  | '0' :: 'x' :: d :: rest => (readDigits 16 0 (d :: rest)).map .number
  | c :: rest => if digitValue c < 10 then (readDigits 10 0 (c :: rest)).map .number else some (.name (c :: rest))

/-- A token before the rest of the line's tokens. -/
def consToken (t : Option Token) (rest : Option (List Token)) : Option (List Token) :=
  match t, rest with
  | some x, some xs => some (x :: xs)
  | _, _ => none

/-- The tokens of a line. A comment starts with `;` outside a literal and runs to the end of the line (R82). -/
def lex : LexMode → List Char → Option (List Token)
  | .between, [] => some []
  | .inName letters, [] => consToken (nameToken letters) (some [])
  | .inLiteral, [] => none
  | .literalEnd _, [] => none
  | .inText _, [] => none
  | .between, c :: rest =>
    if c = ';' then some []
    else if c = ' ' ∨ c = '\t' then lex .between rest
    else if c = ',' then consToken (some .comma) (lex .between rest)
    else if c = '\'' then lex .inLiteral rest
    else if c.toNat = 0x22 then lex (.inText []) rest
    else lex (.inName [c]) rest
  | .inName letters, c :: rest =>
    if c = ';' then consToken (nameToken letters) (some [])
    else if c = ' ' ∨ c = '\t' then consToken (nameToken letters) (lex .between rest)
    else if c = ',' then consToken (nameToken letters) (consToken (some .comma) (lex .between rest))
    else lex (.inName (letters ++ [c])) rest
  | .inLiteral, c :: rest => if isPrintable c then lex (.literalEnd c.toNat) rest else none
  | .literalEnd code, c :: rest => if c = '\'' then consToken (some (.literal code)) (lex .between rest) else none
  | .inText codes, c :: rest =>
    if c.toNat = 0x22 then consToken (some (.text codes)) (lex .between rest)
    else if isPrintable c then lex (.inText (codes ++ [c.toNat])) rest else none

/-- The value of an operand (R83). -/
def operandValue : Token → Option Nat
  | .number n => some n
  | .literal code => some code
  | .name _ => none
  | .text _ => none
  | .comma => none

/-- One operand within the range 0..`top`: "an assembler must reject an operand out of the range of rule R72" (R82). -/
def operandByte (top : Nat) (t : Token) : Option Byte :=
  match operandValue t with
  | some n => if n ≤ top then some (BitVec.ofNat 8 n) else none
  | none => none

/-- The operands `b0, b1, ...` of UPDATES, possibly none (R84). -/
def operandList : List Token → Option (List Byte)
  | [] => some []
  | [t] => (operandByte 255 t).map fun b => [b]
  | t :: .comma :: u :: rest =>
    match operandByte 255 t, operandList (u :: rest) with
    | some b, some bs => some (b :: bs)
    | _, _ => none
  | _ => none

/-- The commands that take no operand (R82). -/
def plainCommand (letters : List Char) : Option Instr :=
  if letters = "NOP".toList then some .nop
  else if letters = "INIT".toList then some .init
  else if letters = "FINALIZE".toList then some .finalize
  else if letters = "RDSTAT".toList then some .rdstat
  else none

/-- The commands that take exactly one operand, with the largest value it may have (R72, R82). -/
def operandCommand (letters : List Char) : Option (Nat × (Byte → Instr)) :=
  if letters = "UPDATE".toList then some (255, .update)
  else if letters = "RDLEN".toList then some (7, .rdlen)
  else if letters = "RDDIG".toList then some (15, .rddig)
  else if letters = "RDHEX".toList then some (31, .rdhex)
  else if letters = "HEXDIG".toList then some (15, .hexdig)
  else none

/-- The pseudo-instructions of R84. -/
def pseudoOf (letters : List Char) (args : List Token) : Option Pseudo :=
  if letters = "UPDATES".toList then
    match args with
    | [.text codes] => some (.updates (codes.map (BitVec.ofNat 8)))
    | _ => (operandList args).map .updates
  else if letters = "HASH".toList then
    match args with
    | [.text codes] => some (.hash (codes.map (BitVec.ofNat 8)))
    | _ => none
  else if args ≠ [] then none
  else if letters = "RDDIGEST".toList then some .rddigest
  else if letters = "RDHEXALL".toList then some .rdhexall
  else if letters = "RDLENALL".toList then some .rdlenall
  else none

/-- The commands of a line that is no directive. -/
def lineCommands (letters : List Char) (args : List Token) : Option (List Instr) :=
  match plainCommand letters, operandCommand letters, args with
  | some i, _, [] => some [i]
  | none, some (top, mk), [t] => (operandByte top t).map fun b => [mk b]
  | none, none, args => (pseudoOf letters args).map Pseudo.expand
  | _, _, _ => none

/-- The inputs that one line of assembly stands for. A line of blanks or of a comment alone stands for none. -/
def assembleLine (line : List Char) : Option (List HostInput) :=
  match lex .between line with
  | some [] => some []
  | some (.name letters :: args) =>
    if letters = ".RESET".toList then (if args = [] then some [.reset] else none)
    else (lineCommands letters args).map issueAll
  | _ => none

/-- The inputs that a listing stands for, line by line (R82). -/
def assemble : List (List Char) → Option (List HostInput)
  | [] => some []
  | line :: rest =>
    match assembleLine line, assemble rest with
    | some es, some more => some (es ++ more)
    | _, _ => none

end Sys2Proof.Machine
end

