-- ==== Sys2Proof/Machine/Platform.lean ====
section
/-! DEFINITION. Several engines on one platform (R8, R64, R235): each has its own state, and none is reached by an input
to another (log 11). -/

namespace Sys2Proof.Machine

/-- The engines of a platform, N_INSTANCES of them, each as its last step left it. -/
abbrev Platform := List Result

/-- "Each starts from its own reset" (R235). -/
def Platform.reset (count : Nat) : Platform := List.replicate count (.next State.reset)

/-- One engine given an input. An engine whose input was refused has no further meaning. -/
def advance (r : Result) (e : HostInput) : Result :=
  match r with
  | .next s => perform e s
  | .fault x => .fault x
  | .refused x => .refused x

/-- An input issued to engine `k` of the platform. -/
def Platform.perform (p : Platform) (k : Nat) (e : HostInput) : Platform := p.modify k fun r => advance r e

/-- Inputs to the engines in some interleaving, oldest first. -/
def Platform.schedule (p : Platform) (inputs : List (Nat × HostInput)) : Platform :=
  inputs.foldl (fun q x => q.perform x.1 x.2) p

/-- The inputs of an interleaving that go to engine `k`, in order. -/
def inputsOf (k : Nat) (inputs : List (Nat × HostInput)) : List HostInput :=
  (inputs.filter fun x => x.1 == k).map Prod.snd

end Sys2Proof.Machine
end

