-- ==== Sys2Proof/Machine/Run.lean ====
section
/-! DEFINITION. Runs of the host's inputs and what is observed of them (R270). -/

namespace Sys2Proof.Machine

/-- The response word of a reply, if there is one. -/
def Reply.words : Reply → List PortWord
  | .none => []
  | .response v => [v]
  | .fault _ => []

/-- The inputs performed one after another (R61), stopping where one is refused. -/
def performAll : List HostInput → State → Result
  | [], s => .next s
  | e :: rest, s =>
    match perform e s with
    | .next t => performAll rest t
    | .fault r => .fault r
    | .refused r => .refused r

/-- The observation of a run (R270): its responses in order, whether a fault occurred with the first fault's code, and the
final state. -/
structure Observation where
  responses : List PortWord
  faulted : Bool
  firstFault : Option FaultCode
  final : State
deriving DecidableEq, Repr

/-- The observation of inputs performed from a state: none where one of them is refused. -/
def observe : List HostInput → State → Option Observation
  | [], s => some ⟨[], s.err, s.ecode, s⟩
  | e :: rest, s =>
    match perform e s with
    | .next t => (observe rest t).map fun o => { o with responses := t.reply.words ++ o.responses }
    | .fault _ => Option.none
    | .refused _ => Option.none

/-- "A run is a finite sequence of commands issued to one instance after a reset" (R270). -/
def observeRun (words : List PortWord) : Option Observation := observe (words.map .command) State.reset

end Sys2Proof.Machine
end

