-- ==== Sys2Proof/Machine/Source.lean ====
section
/-! DEFINITION. The source's own operations (R16): md5_init, md5_update, md5_finalize and to_hex on the HashState of R14,
written from the source's words and apart from the commands, and the view of an engine's state as a HashState. -/

namespace Sys2Proof.Machine

/-- HashState (R14): `chaining_value`, `total_length` and `pending_buffer`. -/
structure HashState where
  chaining : CV
  totalLength : BitCount
  pending : List Byte
deriving DecidableEq, Repr

/-- `md5_init()` (R100). -/
def md5Init : HashState := ⟨CV.initial, 0, []⟩

/-- "While the combined buffer holds ≥64 bytes", compress its first 64 bytes and remove them (R101). Each turn takes 64
bytes, so as many turns as there are bytes are enough. -/
def consumeBlocks : Nat → CV → List Byte → CV × List Byte
  | 0, cv, queue => (cv, queue)
  | turns + 1, cv, queue =>
    if 64 ≤ queue.length then consumeBlocks turns (compress cv (queue.take 64)) (queue.drop 64) else (cv, queue)

/-- `md5_update(st, bytes)` as the source defines it (R101): bytes concatenated onto the pending buffer, full blocks
consumed, `8 * len(bytes)` added to the length mod 2^64. -/
def md5Update (st : HashState) (bytes : List Byte) : HashState :=
  let queue := st.pending ++ bytes
  let consumed := consumeBlocks queue.length st.chaining queue
  ⟨consumed.1, st.totalLength + 8 * BitVec.ofNat 64 bytes.length, consumed.2⟩

/-- "The *smallest* number z ≥ 0 of 0x00 bytes that makes the length ≡ 56 mod 64", from `n` bytes and the 0x80 byte (R104). -/
def smallestPadding (n : Nat) : Nat := ((List.range 64).find? fun z => (n + 1 + z) % 64 == 56).getD 0

/-- `md5_finalize(st)` (R104 to R107): the digest. -/
def md5Finalize (st : HashState) : List Byte :=
  let padded := st.pending ++ [0x80#8] ++ zeros (smallestPadding st.pending.length) ++ le64bytes st.totalLength
  digest (consumeBlocks padded.length st.chaining padded).1

/-- `to_hex(d)` (R201). -/
def toHex (d : List Byte) : List Byte := d.flatMap fun b => [hexdigit (highNibble b), hexdigit (lowNibble b)]

/-- The MD5 digest of a byte sequence by the source's contract: init, update, finalize (R220). -/
def md5 (bytes : List Byte) : List Byte := md5Finalize (md5Update md5Init bytes)

/-- Round `i` in the form without the permutation (R143): rounds 4k, 4k+1, 4k+2 and 4k+3 update the registers that the
source calls A, D, C and B, in that order. -/
def unrolledStep (m : List Word) (w : CV) (i : Nat) : CV :=
  let mixed (x p q r : Word) : Word := p + rotl32 (x + stageFn i p q r + m.getD (romK i) 0 + romT i) (romS i)
  if i % 4 = 0 then { w with a := mixed w.a w.b w.c w.d }
  else if i % 4 = 1 then { w with d := mixed w.d w.a w.b w.c }
  else if i % 4 = 2 then { w with c := mixed w.c w.d w.a w.b }
  else { w with b := mixed w.b w.c w.d w.a }

/-- The transform with the unrolled rounds. -/
def compressUnrolled (cv : CV) (block : List Byte) : CV :=
  cv.add ((List.range 64).foldl (unrolledStep (messageWords block)) cv)

/-- The HashState an engine holds: CV, LEN and BUF[0..BUFLEN) (R14, R24). -/
def State.hashState (s : State) : HashState := ⟨s.cv, s.len, s.buf.slice s.buflen.toNat⟩

end Sys2Proof.Machine
end

