-- ==== Sys2Proof/Safety.lean ====
section
/-! DEFINITION. What counts as a good state and a safe run: the invariant, the claims' "no fault" premise, and the agreement
of two states on everything a command can observe. -/

namespace Sys2Proof.Machine

/-- The next state of an outcome, where it is one. -/
def nextState (r : Result) : Option State :=
  match r with
  | .next s => some s
  | .fault _ => Option.none
  | .refused _ => Option.none

/-- "A claim that says nothing about faults is a claim about runs with no fault recorded" (R270). -/
abbrev State.noFault (s : State) : Prop := s.err = false

/-- The invariant of R25 in its corrected form: BUFLEN = (LEN >> 3) mod 64 before finalization, BUFLEN = 0 after. -/
abbrev State.bufferMatchesLength (s : State) : Prop :=
  (s.phase ≠ .finalized → s.buflen = (s.len >>> 3).setWidth 6) ∧ (s.phase = .finalized → s.buflen = 0)

/-- ERR is set exactly when ECODE holds a code (R28, R29). -/
abbrev State.recordConsistent (s : State) : Prop := s.err = s.ecode.isSome

/-- In IDLE nothing but reset has written the stream registers (R36, R39). -/
abbrev State.idleIsFresh (s : State) : Prop := s.phase = .idle → s.cv = CV.initial ∧ s.len = 0 ∧ s.buflen = 0

/-- The invariant that every step keeps. -/
abbrev State.inv (s : State) : Prop :=
  s.buf.wf = true ∧ s.bufferMatchesLength ∧ s.recordConsistent ∧ s.idleIsFresh

/-- Two states that differ at most in the stale bytes BUF[BUFLEN..63] (R26). -/
abbrev State.agreeButStale (s t : State) : Prop :=
  s.cv = t.cv ∧ s.len = t.len ∧ s.buflen = t.buflen ∧ s.phase = t.phase ∧ s.err = t.err ∧ s.ecode = t.ecode
    ∧ s.reply = t.reply ∧ s.port = t.port ∧ ∀ a : BufIndex, a.toNat < s.buflen.toNat → s.buf.read a = t.buf.read a

/-- The stream registers CV, LEN, BUF, BUFLEN and PHASE are unchanged: all that a faulting command leaves alone (R224). -/
abbrev State.sameStream (s t : State) : Prop :=
  s.cv = t.cv ∧ s.len = t.len ∧ s.buf = t.buf ∧ s.buflen = t.buflen ∧ s.phase = t.phase

/-- Two states equal in every element of R20: they may differ in the model's own `reply` and `port` only. -/
abbrev State.sameEngine (s t : State) : Prop :=
  s.cv = t.cv ∧ s.len = t.len ∧ s.buf = t.buf ∧ s.buflen = t.buflen ∧ s.phase = t.phase ∧ s.err = t.err ∧ s.ecode = t.ecode

/-- The command was a fault outcome (R224). -/
abbrev State.faulted (s : State) : Prop := ∃ c, s.reply = .fault c

/-- The numbers the fields OP, RSV and ARG hold (R70), read from the word as a number. -/
def wordOp (w : PortWord) : Nat := w.toNat / 4096

def wordRsv (w : PortWord) : Nat := w.toNat / 256 % 16

def wordArg (w : PortWord) : Nat := w.toNat % 256

/-- ILLEGAL_COMMAND's condition (R222): OP ≥ 0x9, or RSV ≠ 0, or ARG ≠ 0 for NOP, INIT, FINALIZE or RDSTAT. -/
abbrev wordIllegal (w : PortWord) : Prop :=
  9 ≤ wordOp w ∨ wordRsv w ≠ 0 ∨ ((wordOp w = 0 ∨ wordOp w = 1 ∨ wordOp w = 3 ∨ wordOp w = 4) ∧ wordArg w ≠ 0)

/-- BAD_ARGUMENT's condition (R222): ARG > 7, > 15, > 31 and > 15 for RDLEN, RDDIG, RDHEX and HEXDIG. -/
abbrev wordBadArgument (w : PortWord) : Prop :=
  (wordOp w = 5 ∧ 7 < wordArg w) ∨ (wordOp w = 6 ∧ 15 < wordArg w) ∨ (wordOp w = 7 ∧ 31 < wordArg w)
    ∨ (wordOp w = 8 ∧ 15 < wordArg w)

end Sys2Proof.Machine
end

