-- ==== Sys2Proof/Certificates/Slice0/Obligations.lean ====
section
/-! DEFINITION. The statements for the provers. Each docstring names the rule of spec/ it formalises, or says that it is
derived. OP, RSV and ARG are read from a word as `wordOp`, `wordRsv` and `wordArg`. A command's response, or its being a fault
outcome, is read from the model's own field `reply` (log 3). -/

open Sys2Proof Sys2Proof.Machine

/-! ## Encoding -/

/-- Derived from R70 to R73: no bit of an encoding is dropped. -/
def Obligations.DecodeReversesEncode : Prop := ∀ i : Instr, i.wellFormed = true → decode (encode i) = .command i

/-- Derived from R70 to R74: a word has at most one command, which is well formed and encodes to it. -/
def Obligations.EncodeReversesDecode : Prop :=
  ∀ (w : PortWord) (i : Instr), decode w = .command i → i.wellFormed = true ∧ encode i = w

/-- R74: the decode procedure, line by line, on every word, and the phase checks after it. -/
def Obligations.DecodeFollowsProcedure : Prop :=
  ∀ w : PortWord,
    (if 9 ≤ wordOp w then decode w = .fault .illegalCommand
     else if wordRsv w ≠ 0 then decode w = .fault .illegalCommand
     else if (wordOp w = 0 ∨ wordOp w = 1 ∨ wordOp w = 3 ∨ wordOp w = 4) ∧ wordArg w ≠ 0 then
       decode w = .fault .illegalCommand
     else if wordOp w = 5 ∧ 7 < wordArg w then decode w = .fault .badArgument
     else if wordOp w = 6 ∧ 15 < wordArg w then decode w = .fault .badArgument
     else if wordOp w = 7 ∧ 31 < wordArg w then decode w = .fault .badArgument
     else if wordOp w = 8 ∧ 15 < wordArg w then decode w = .fault .badArgument
     else ∃ i, decode w = .command i ∧ i.opcode = wordOp w ∧ i.arg.toNat = wordArg w)
    ∧ ∀ (s : State) (c : FaultCode), decode w = .fault c →
        ∃ t, perform (.command w) s = .next t ∧ t.reply = .fault c

/-- Derived from R73: the rows are disjoint, a word that selects no row is ILLEGAL_COMMAND, and a word that selects a row
is that row's command within its ARG range and BAD_ARGUMENT above it. -/
def Obligations.OpcodeRowsSelectCommands : Prop :=
  (∀ r ∈ opcodeRows, ∀ q ∈ opcodeRows, ∀ w, r.selects w = true → q.selects w = true → r = q)
  ∧ (∀ w, (∀ r ∈ opcodeRows, r.selects w = false) → decode w = .fault .illegalCommand)
  ∧ ∀ r ∈ opcodeRows, ∀ w, r.selects w = true →
      if wordArg w ≤ r.argMax then ∃ i, decode w = .command i ∧ i.opcode = r.op ∧ i.arg.toNat = wordArg w
      else decode w = .fault .badArgument

/-- R75, R76 and R77: the words that are ILLEGAL_COMMAND, in every state. -/
def Obligations.IllegalWordsFault : Prop :=
  ∀ (w : PortWord) (s : State),
    (9 ≤ wordOp w ∨ (wordOp w ≤ 8 ∧ wordRsv w ≠ 0)
      ∨ ((wordOp w = 0 ∨ wordOp w = 1 ∨ wordOp w = 3 ∨ wordOp w = 4) ∧ wordRsv w = 0 ∧ wordArg w ≠ 0)) →
    decode w = .fault .illegalCommand ∧ ∃ t, perform (.command w) s = .next t ∧ t.reply = .fault .illegalCommand

/-- R78: the words that are BAD_ARGUMENT, in every state, and that no word of UPDATE is. -/
def Obligations.OutOfRangeIndexFaults : Prop :=
  ∀ (w : PortWord) (s : State), wordRsv w = 0 →
    (((wordOp w = 5 ∧ 7 < wordArg w) ∨ (wordOp w = 6 ∧ 15 < wordArg w) ∨ (wordOp w = 7 ∧ 31 < wordArg w)
        ∨ (wordOp w = 8 ∧ 15 < wordArg w)) →
      decode w = .fault .badArgument ∧ ∃ t, perform (.command w) s = .next t ∧ t.reply = .fault .badArgument)
    ∧ (wordOp w = 2 → ∃ d : Byte, d.toNat = wordArg w ∧ decode w = .command (.update d))

/-- Derived from R73: a few words, one per family and per kind of rejection, decode as the spec lists them. -/
def Obligations.SampleWordsDecode : Prop :=
  decode 0x0000#16 = .command .nop ∧ decode 0x1000#16 = .command .init ∧ decode 0x2061#16 = .command (.update 0x61)
    ∧ decode 0x3000#16 = .command .finalize ∧ decode 0x4000#16 = .command .rdstat ∧ decode 0x5007#16 = .command (.rdlen 7)
    ∧ decode 0x600f#16 = .command (.rddig 15) ∧ decode 0x701f#16 = .command (.rdhex 31)
    ∧ decode 0x800f#16 = .command (.hexdig 15) ∧ decode 0x0100#16 = .fault .illegalCommand
    ∧ decode 0x1001#16 = .fault .illegalCommand ∧ decode 0x5008#16 = .fault .badArgument
    ∧ decode 0x9000#16 = .fault .illegalCommand

/-- Derived from R82: whatever line an assembler accepts, it encodes well-formed commands or the reset input only, so no
word it gives is BAD_ARGUMENT or ILLEGAL_COMMAND. The layout it accepts is log 13. -/
def Obligations.AssemblerEmitsLegalWords : Prop :=
  ∀ (line : List Char) (inputs : List HostInput), assembleLine line = some inputs →
    ∀ e ∈ inputs, e = .reset ∨ ∃ (w : PortWord) (i : Instr), e = .command w ∧ decode w = .command i

/-! ## The step and the inputs -/

/-- Derived from R13 and R61, with the port of log 2: the step takes the host's next input from the port and performs it.
When it is a word that decodes to a command, the step is exactly that command; when the word decodes to a fault, the step
raises it. -/
def Obligations.StepPerformsNextInput : Prop :=
  ∀ (s : State) (e : HostInput) (rest : List HostInput), s.port = e :: rest →
    step s = perform e { s with port := rest }
    ∧ (∀ w i, e = .command w → decode w = .command i → step s = exec i { s with port := rest })
    ∧ (∀ w c, e = .command w → decode w = .fault c → step s = .next (State.raiseFault { s with port := rest } c))

/-- R260: the reset input sets every element to its value of R36, from every state, and `State.reset` holds those values. What
BUF then holds is the model's choice (log 5) and is not stated. -/
def Obligations.ResetInputSetsResetValues : Prop :=
  (∀ s : State, ∃ t, perform .reset s = .next t
      ∧ t.cv = ⟨0x67452301#32, 0xefcdab89#32, 0x98badcfe#32, 0x10325476#32⟩ ∧ t.len = 0 ∧ t.buflen = 0
      ∧ t.phase = .idle ∧ t.err = false ∧ t.ecode = none)
  ∧ State.reset.cv = ⟨0x67452301#32, 0xefcdab89#32, 0x98badcfe#32, 0x10325476#32⟩ ∧ State.reset.len = 0
  ∧ State.reset.buflen = 0 ∧ State.reset.phase = .idle ∧ State.reset.err = false ∧ State.reset.ecode = none

/-- Derived from R237: with no command issued the engine holds its state. That the step is then a next state is the
model's choice (log 4). -/
def Obligations.IdlePortHoldsState : Prop := ∀ s : State, s.port = [] → step s = .next s

/-- R267: every command word, legal or not, completes in every state, and so does the reset input. -/
def Obligations.EveryCommandCompletes : Prop :=
  (∀ (w : PortWord) (s : State), ∃ t, perform (.command w) s = .next t) ∧ ∀ s : State, ∃ t, perform .reset s = .next t

/-- Derived from R63 and R261, with the inputs of log 7: a step is refused exactly on a second issuer's word and on a reset
that arrives during a command. That no step ends in the interface's fault is the model's choice of log 1, from R224, R228 and
R267: a command that R224 calls a fault outcome is a next state with the fault in `reply`, and `Fault` has no constructor. -/
def Obligations.StepStopsOnlyOnRefusedInputs : Prop :=
  ∀ s : State,
    (∀ r, step s ≠ .fault r)
    ∧ (step s = .refused .secondIssuer ↔ ∃ w rest, s.port = .foreignCommand w :: rest)
    ∧ (step s = .refused .resetDuringCommand ↔ ∃ w rest, s.port = .resetDuring w :: rest)
    ∧ ∀ m, step s ≠ .refused (.notModelled m)

/-! ## Faults -/

/-- R224 and R225: a faulting command has no effect but the fault record, in which the first code since reset is kept. -/
def Obligations.FaultWritesOnlyItsRecord : Prop :=
  ∀ (w : PortWord) (s t : State) (c : FaultCode), perform (.command w) s = .next t → t.reply = .fault c →
    s.sameStream t ∧ t.reply.words = [] ∧ t.err = true
      ∧ t.ecode = if s.err = false then some c else s.ecode

/-- R226 and R223: which fault a word raises in a state, in the order of the checks; nothing else faults; and a command
that raises has written no stream register. -/
def Obligations.FaultPriorityIsFixed : Prop :=
  ∀ (w : PortWord) (s : State), ∃ t, perform (.command w) s = .next t
    ∧ (if wordIllegal w then t.reply = .fault .illegalCommand
       else if wordBadArgument w then t.reply = .fault .badArgument
       else if (wordOp w = 2 ∨ wordOp w = 3) ∧ s.phase = .idle then t.reply = .fault .noStream
       else if (wordOp w = 2 ∨ wordOp w = 3) ∧ s.phase = .finalized then t.reply = .fault .streamConsumed
       else if (wordOp w = 6 ∨ wordOp w = 7) ∧ s.phase ≠ .finalized then t.reply = .fault .digestNotReady
       else ¬ t.faulted)
    ∧ (t.faulted → s.sameStream t)

/-- R28 and R29: ERR and ECODE. Zero after reset; the first fault sets them; no command clears them or changes a code once
recorded; a command that does not fault leaves them; the reset input clears them; read as STATUS[15] and STATUS[10:8]. -/
def Obligations.FaultRecordIsSticky : Prop :=
  State.reset.err = false ∧ State.reset.ecode = none
  ∧ (∀ s t, perform .reset s = .next t → t.err = false ∧ t.ecode = none)
  ∧ (∀ (w : PortWord) (s t : State), perform (.command w) s = .next t →
      (s.err = true → t.err = true ∧ t.ecode = s.ecode)
      ∧ (∀ c, t.reply = .fault c → t.err = true ∧ (s.err = false → t.ecode = some c))
      ∧ (¬ t.faulted → t.err = s.err ∧ t.ecode = s.ecode))
  ∧ ∀ s : State, (s.status.getLsbD 15 = s.err)
      ∧ (s.status.extractLsb' 8 3).toNat =
          (match s.ecode with
           | none => 0
           | some .illegalCommand => 1
           | some .badArgument => 2
           | some .noStream => 3
           | some .streamConsumed => 4
           | some .digestNotReady => 5)

/-- R39: every transition of PHASE, and the faults of the two rows that stay. -/
def Obligations.PhaseTransitionsAreListed : Prop :=
  (∀ s t, perform .reset s = .next t → t.phase = .idle)
  ∧ ∀ (w : PortWord) (s t : State), perform (.command w) s = .next t →
      (t.phase = if decode w = .command .init then .active
        else if decode w = .command .finalize ∧ s.phase = .active then .finalized else s.phase)
      ∧ (((∃ d, decode w = .command (.update d)) ∨ decode w = .command .finalize) →
          (s.phase = .idle → t.reply = .fault .noStream) ∧ (s.phase = .finalized → t.reply = .fault .streamConsumed))

/-! ## The commands: completion, result, frame and faults -/

/-- R110: NOP. -/
def Obligations.NopChangesNothing : Prop :=
  encode .nop = 0x0000#16 ∧ decode 0x0000#16 = .command .nop
  ∧ (∀ s : State, exec .nop s = .next { s with reply := .none })
  ∧ ∀ w, wordOp w = 0 → w.toNat % 4096 ≠ 0 → decode w = .fault .illegalCommand

/-- R111: INIT. BUF, ERR and ECODE are as they were. -/
def Obligations.InitStartsStream : Prop :=
  encode .init = 0x1000#16 ∧ decode 0x1000#16 = .command .init
  ∧ (∀ s : State, exec .init s = .next { s with
        cv := ⟨0x67452301#32, 0xefcdab89#32, 0x98badcfe#32, 0x10325476#32⟩, len := 0, buflen := 0, phase := .active,
        reply := .none })
  ∧ (∀ s t, exec .init s = .next t → exec .init t = .next t)
  ∧ ∀ w, wordOp w = 1 → w.toNat % 4096 ≠ 0 → decode w = .fault .illegalCommand

/-- R112: UPDATE. The byte lands at BUF[BUFLEN] and no other byte of BUF changes; LEN is mod 2^64; the 64th byte compresses
the block and empties the buffer; outside ACTIVE it faults; and the corner case of the LEN wrap. -/
def Obligations.UpdateAbsorbsByte : Prop :=
  (∀ d : Byte, encode (.update d) = 0x2000#16 ||| d.setWidth 16 ∧ decode (0x2000#16 ||| d.setWidth 16) = .command (.update d))
  ∧ (∀ (d : Byte) (s : State), s.phase = .active → ∃ t, exec (.update d) s = .next t
      ∧ t.buf.read s.buflen = d ∧ (∀ a, a ≠ s.buflen → t.buf.read a = s.buf.read a)
      ∧ t.len.toNat = (s.len.toNat + 8) % 2 ^ 64
      ∧ (if s.buflen.toNat = 63 then t.cv = compress s.cv (s.buf.slice 63 ++ [d]) ∧ t.buflen = 0
         else t.cv = s.cv ∧ t.buflen.toNat = s.buflen.toNat + 1)
      ∧ t.phase = .active ∧ t.err = s.err ∧ t.ecode = s.ecode ∧ t.reply = .none ∧ t.port = s.port)
  ∧ (∀ (d : Byte) (s : State), s.phase ≠ .active → ∃ t, exec (.update d) s = .next t ∧ s.sameStream t
      ∧ t.reply = .fault (if s.phase = .idle then .noStream else .streamConsumed))
  ∧ (∀ (d : Byte) (s : State), s.phase = .active → s.bufferMatchesLength → s.len = 0xFFFFFFFFFFFFFFF8#64 →
      s.buflen = 63 ∧ ∃ t, exec (.update d) s = .next t ∧ t.len = 0 ∧ t.buflen = 0
        ∧ t.cv = compress s.cv (s.buf.slice 63 ++ [d]) ∧ ¬ t.faulted)
  ∧ ∀ w, wordOp w = 2 → wordRsv w ≠ 0 → decode w = .fault .illegalCommand

/-- R113: FINALIZE. One block where BUFLEN ≤ 55, two where BUFLEN ≥ 56; LEN, BUF, ERR and ECODE as they were; outside ACTIVE
it faults and leaves the digest as it was. -/
def Obligations.FinalizePadsAndCompresses : Prop :=
  encode .finalize = 0x3000#16 ∧ decode 0x3000#16 = .command .finalize
  ∧ (∀ s : State, s.phase = .active → ∃ t, exec .finalize s = .next t
      ∧ (if s.buflen.toNat ≤ 55 then
           t.cv = compress s.cv
             (s.buf.slice s.buflen.toNat ++ [0x80#8] ++ zeros (55 - s.buflen.toNat) ++ le64bytes s.len)
         else
           t.cv = compress (compress s.cv (s.buf.slice s.buflen.toNat ++ [0x80#8] ++ zeros (63 - s.buflen.toNat)))
             (zeros 56 ++ le64bytes s.len))
      ∧ t.buflen = 0 ∧ t.phase = .finalized ∧ t.len = s.len ∧ t.buf = s.buf
      ∧ t.err = s.err ∧ t.ecode = s.ecode ∧ t.reply = .none ∧ t.port = s.port)
  ∧ (∀ s : State, s.phase ≠ .active → ∃ t, exec .finalize s = .next t ∧ s.sameStream t
      ∧ t.reply = .fault (if s.phase = .idle then .noStream else .streamConsumed))
  ∧ ∀ w, wordOp w = 3 → w.toNat % 4096 ≠ 0 → decode w = .fault .illegalCommand

/-- R104: the fewest zero bytes, the tail and its length. -/
def Obligations.PaddingIsSmallest : Prop :=
  (∀ n, n < 64 →
    (n + 1 + padZeros n) % 64 = 56 ∧ (∀ z, z < padZeros n → (n + 1 + z) % 64 ≠ 56)
    ∧ (if n ≤ 55 then padZeros n = 55 - n else padZeros n = 119 - n))
  ∧ ∀ s : State,
      s.tail = s.buf.slice s.buflen.toNat ++ [0x80#8] ++ zeros (padZeros s.buflen.toNat) ++ le64bytes s.len
      ∧ s.tail.length = if s.buflen.toNat ≤ 55 then 64 else 128

/-- R180: RDSTAT, with the fields of R30. -/
def Obligations.RdstatReturnsStatus : Prop :=
  encode .rdstat = 0x4000#16 ∧ decode 0x4000#16 = .command .rdstat
  ∧ (∀ s : State, ∃ v : PortWord, exec .rdstat s = .next { s with reply := .response v }
      ∧ v.extractLsb' 0 6 = s.buflen
      ∧ (v.extractLsb' 6 2).toNat = (match s.phase with | .idle => 0 | .active => 1 | .finalized => 2)
      ∧ (v.extractLsb' 8 3).toNat =
          (match s.ecode with
           | none => 0
           | some .illegalCommand => 1
           | some .badArgument => 2
           | some .noStream => 3
           | some .streamConsumed => 4
           | some .digestNotReady => 5)
      ∧ v.extractLsb' 11 4 = 0 ∧ v.getLsbD 15 = s.err
      ∧ (s.bufferMatchesLength → s.phase = .finalized → v.extractLsb' 0 6 = 0))
  ∧ exec .rdstat State.reset = .next { State.reset with reply := .response 0x0000#16 }
  ∧ ∀ w, wordOp w = 4 → w.toNat % 4096 ≠ 0 → decode w = .fault .illegalCommand

/-- R181: RDLEN. -/
def Obligations.RdlenReturnsLengthByte : Prop :=
  (∀ k : Byte, k.toNat ≤ 7 →
    encode (.rdlen k) = 0x5000#16 ||| k.setWidth 16 ∧ decode (0x5000#16 ||| k.setWidth 16) = .command (.rdlen k))
  ∧ (∀ (k : Byte) (s : State), k.toNat ≤ 7 →
      exec (.rdlen k) s =
        .next { s with reply := .response (BitVec.ofNat 16 (s.len.toNat / 2 ^ (8 * k.toNat) % 256)) })
  ∧ ∀ w, wordOp w = 5 →
      (wordRsv w ≠ 0 → decode w = .fault .illegalCommand)
      ∧ (wordRsv w = 0 → 7 < wordArg w → decode w = .fault .badArgument)

/-- R182: RDDIG, with the digest of R183. -/
def Obligations.RddigReturnsDigestByte : Prop :=
  (∀ k : Byte, k.toNat ≤ 15 →
    encode (.rddig k) = 0x6000#16 ||| k.setWidth 16 ∧ decode (0x6000#16 ||| k.setWidth 16) = .command (.rddig k))
  ∧ (∀ (k : Byte) (s : State), k.toNat ≤ 15 → s.phase = .finalized →
      ∃ b : Byte, (digest s.cv)[k.toNat]? = some b
        ∧ exec (.rddig k) s = .next { s with reply := .response (BitVec.ofNat 16 b.toNat) })
  ∧ (∀ (k : Byte) (s : State), k.toNat ≤ 15 → s.phase ≠ .finalized →
      ∃ t, exec (.rddig k) s = .next t ∧ s.sameStream t ∧ t.reply = .fault .digestNotReady)
  ∧ ∀ w, wordOp w = 6 →
      (wordRsv w ≠ 0 → decode w = .fault .illegalCommand)
      ∧ (wordRsv w = 0 → 15 < wordArg w → decode w = .fault .badArgument)

/-- R183: the digest is a function of CV, written out, and in FINALIZED no command but INIT changes it. -/
def Obligations.DigestIsChainingValue : Prop :=
  (∀ (cv : CV) (w k : Nat), w < 4 → k < 4 →
    (digest cv)[4 * w + k]? =
      some (BitVec.ofNat 8 (([cv.a, cv.b, cv.c, cv.d].getD w 0).toNat / 2 ^ (8 * k) % 256)))
  ∧ (∀ cv : CV, (digest cv).length = 16)
  ∧ ∀ (w : PortWord) (s t : State), s.phase = .finalized → perform (.command w) s = .next t → decode w ≠ .command .init →
      digest t.cv = digest s.cv ∧ t.phase = .finalized

/-- R203: RDHEX is character j of to_hex of the digest. -/
def Obligations.RdhexReturnsHexCharacter : Prop :=
  (∀ j : Byte, j.toNat ≤ 31 →
    encode (.rdhex j) = 0x7000#16 ||| j.setWidth 16 ∧ decode (0x7000#16 ||| j.setWidth 16) = .command (.rdhex j))
  ∧ (∀ (j : Byte) (s : State), j.toNat ≤ 31 → s.phase = .finalized →
      ∃ b : Byte, (toHex (digest s.cv))[j.toNat]? = some b
        ∧ exec (.rdhex j) s = .next { s with reply := .response (BitVec.ofNat 16 b.toNat) })
  ∧ (∀ (j : Byte) (s : State), j.toNat ≤ 31 → s.phase ≠ .finalized →
      ∃ t, exec (.rdhex j) s = .next t ∧ s.sameStream t ∧ t.reply = .fault .digestNotReady)
  ∧ ∀ w, wordOp w = 7 →
      (wordRsv w ≠ 0 → decode w = .fault .illegalCommand)
      ∧ (wordRsv w = 0 → 31 < wordArg w → decode w = .fault .badArgument)

/-- R202: HEXDIG, with the codes of R200. -/
def Obligations.HexdigReturnsDigitCode : Prop :=
  (∀ n : Byte, n.toNat ≤ 15 →
    encode (.hexdig n) = 0x8000#16 ||| n.setWidth 16 ∧ decode (0x8000#16 ||| n.setWidth 16) = .command (.hexdig n))
  ∧ (∀ (n : Byte) (s : State), n.toNat ≤ 15 →
      exec (.hexdig n) s = .next { s with
        reply := .response (BitVec.ofNat 16 (if n.toNat ≤ 9 then 0x30 + n.toNat else 0x61 + (n.toNat - 10))) })
  ∧ ∀ w, wordOp w = 8 →
      (wordRsv w ≠ 0 → decode w = .fault .illegalCommand)
      ∧ (wordRsv w = 0 → 15 < wordArg w → decode w = .fault .badArgument)

/-- R201: to_hex, for a digest of any length; 32 characters for 16 bytes; every code is of 0-9 or a-f. -/
def Obligations.ToHexWritesTwoDigitsPerByte : Prop :=
  ∀ d : List Byte,
    (∀ k (h : k < d.length),
      (toHex d)[2 * k]? = some (hexdigit (BitVec.ofNat 4 (d[k].toNat / 16)))
      ∧ (toHex d)[2 * k + 1]? = some (hexdigit (BitVec.ofNat 4 (d[k].toNat % 16))))
    ∧ (d.length = 16 → (toHex d).length = 32)
    ∧ ∀ c ∈ toHex d, (0x30 ≤ c.toNat ∧ c.toNat ≤ 0x39) ∨ (0x61 ≤ c.toNat ∧ c.toNat ≤ 0x66)

/-- Derived from R59: a command of the six without side effects, when it does not fault, changes only the response port, is
idempotent, and changes no later result. -/
def Obligations.ReadsHaveNoSideEffects : Prop :=
  ∀ (i : Instr) (s t : State),
    (i = .nop ∨ i = .rdstat ∨ (∃ k, i = .rdlen k) ∨ (∃ k, i = .rddig k) ∨ (∃ j, i = .rdhex j) ∨ (∃ n, i = .hexdig n)) →
    exec i s = .next t → ¬ t.faulted →
    t = { s with reply := t.reply } ∧ exec i t = .next t ∧ ∀ i', exec i' t = exec i' s

/-- Derived from R35: what each command's result depends on. Two states that agree on the columns marked R give the same
reply and the same values in the columns marked W. -/
def Obligations.ResultsDependOnMatrixColumns : Prop :=
  ∀ s s' t t' : State,
    (∀ n, exec (.hexdig n) s = .next t → exec (.hexdig n) s' = .next t' → t.reply = t'.reply)
    ∧ (∀ k, s.len = s'.len → exec (.rdlen k) s = .next t → exec (.rdlen k) s' = .next t' → t.reply = t'.reply)
    ∧ (∀ k, s.cv = s'.cv → s.phase = s'.phase → exec (.rddig k) s = .next t → exec (.rddig k) s' = .next t' →
        t.reply = t'.reply)
    ∧ (∀ j, s.cv = s'.cv → s.phase = s'.phase → exec (.rdhex j) s = .next t → exec (.rdhex j) s' = .next t' →
        t.reply = t'.reply)
    ∧ (s.buflen = s'.buflen → s.phase = s'.phase → s.err = s'.err → s.ecode = s'.ecode →
        exec .rdstat s = .next t → exec .rdstat s' = .next t' → t.reply = t'.reply)
    ∧ (exec .init s = .next t → exec .init s' = .next t' →
        t.cv = t'.cv ∧ t.len = t'.len ∧ t.buflen = t'.buflen ∧ t.phase = t'.phase ∧ t.reply = t'.reply)
    ∧ (∀ d, s.sameStream s' → exec (.update d) s = .next t → exec (.update d) s' = .next t' →
        t.sameStream t' ∧ t.reply = t'.reply)
    ∧ (s.sameStream s' → exec .finalize s = .next t → exec .finalize s' = .next t' →
        t.sameStream t' ∧ t.reply = t'.reply)

/-- Derived from R35: which commands can change each stream register, and when. -/
def Obligations.RegistersChangeOnlyByTheirCommands : Prop :=
  ∀ (w : PortWord) (s t : State), perform (.command w) s = .next t →
    (t.cv ≠ s.cv → s.phase = .active ∧ (decode w = .command .finalize ∨ ∃ d, decode w = .command (.update d) ∧ s.buflen = 63)
      ∨ decode w = .command .init)
    ∧ (t.len ≠ s.len → decode w = .command .init ∨ (s.phase = .active ∧ ∃ d, decode w = .command (.update d)))
    ∧ (t.buf ≠ s.buf → s.phase = .active ∧ ∃ d, decode w = .command (.update d))
    ∧ (t.buflen ≠ s.buflen → decode w = .command .init
        ∨ (s.phase = .active ∧ (decode w = .command .finalize ∨ ∃ d, decode w = .command (.update d))))
    ∧ t.port = s.port

/-- R38: before FINALIZED no command shows CV: with another CV in its place the reply is the same and so is every other
element, and RDDIG and RDHEX fault. -/
def Obligations.ChainingValueIsHidden : Prop :=
  ∀ (w : PortWord) (s t t' : State) (cv : CV), s.phase ≠ .finalized →
    perform (.command w) s = .next t → perform (.command w) { s with cv := cv } = .next t' →
    { t with cv := t'.cv } = t'
    ∧ (((∃ k, decode w = .command (.rddig k)) ∨ (∃ j, decode w = .command (.rdhex j))) → t.reply = .fault .digestNotReady)

/-- R115: an accepted byte adds 8 to LEN mod 2^64, with no fault, whatever LEN was, and 2^61 + k bytes give the suffix of k
bytes. -/
def Obligations.LengthWrapsSilently : Prop :=
  (∀ (d : Byte) (s : State), s.phase = .active →
    ∃ t, exec (.update d) s = .next t ∧ t.len.toNat = (s.len.toNat + 8) % 2 ^ 64 ∧ ¬ t.faulted ∧ t.err = s.err
      ∧ t.ecode = s.ecode)
  ∧ ∀ (bytes bytes' : List Byte), bytes'.length = 2 ^ 61 + bytes.length →
      le64bytes (md5Update md5Init bytes').totalLength = le64bytes (md5Update md5Init bytes).totalLength

/-! ## The compression transform -/

/-- Derived: R142, the spec's own inference. Bit k of a stage function depends on bit k of b, c and d by the truth table. -/
def Obligations.StageFunctionsAreBitwise : Prop :=
  ∀ (i k : Nat) (b c d : Word), i < 64 → k < 32 →
    (stageFn i b c d).getLsbD k =
      (if i < 16 then (if b.getLsbD k then c.getLsbD k else d.getLsbD k)
       else if i < 32 then (if d.getLsbD k then b.getLsbD k else c.getLsbD k)
       else if i < 48 then (b.getLsbD k != (c.getLsbD k != d.getLsbD k))
       else (if b.getLsbD k || !d.getLsbD k then !c.getLsbD k else c.getLsbD k))

/-- Derived from R10 and R150: rotation is circular, bits shifted out at bit 31 re-enter at bit 0. -/
def Obligations.RotationIsCircular : Prop :=
  ∀ (x : Word) (amount k : Nat), 1 ≤ amount → amount ≤ 31 → k < 32 →
    (rotl32 x amount).getLsbD ((k + amount) % 32) = x.getLsbD k

/-- Derived from R147 and R148: every rotation amount lies in 4..23, and within each stage each message word is read
exactly once. -/
def Obligations.RomScheduleIsPermutation : Prop :=
  (∀ i, i < 64 → 4 ≤ romS i ∧ romS i ≤ 23)
  ∧ ∀ stage, stage < 4 → ∀ j, j < 16 → ((List.range 16).map fun r => romK (16 * stage + r)).count j = 1

/-- Derived: the last sentence of R143, the spec's own inference. The transform with the permuted registers equals the
unrolled one, which updates A, D, C and B in turn. -/
def Obligations.UnrolledRoundsAgree : Prop := ∀ (cv : CV) (block : List Byte), compressUnrolled cv block = compress cv block

/-! ## Invariants and whole-machine rules -/

/-- Derived from R36 and R25: the invariant holds at reset. -/
def Obligations.ResetStateIsGood : Prop := State.reset.inv

/-- Derived from R25, R28, R29 and R36: every step keeps the invariant (BUF canonical, BUFLEN = (LEN >> 3) mod 64 before
finalization and 0 after, ERR set exactly when ECODE is, nothing written in IDLE). -/
def Obligations.StepKeepsInvariant : Prop := ∀ s t : State, s.inv → step s = .next t → t.inv

/-- R26: no step reads a stale byte: states that differ in BUF[BUFLEN..63] only go to states that differ in stale bytes only,
with the same reply. -/
def Obligations.StaleBytesAreNeverRead : Prop :=
  ∀ s t s' : State, s.agreeButStale t → step s = .next s' → ∃ t', step t = .next t' ∧ s'.agreeButStale t'

/-- Derived from R64: in any interleaving of inputs each engine of a platform ends as its own inputs alone leave it. -/
def Obligations.EnginesAreIsolated : Prop :=
  ∀ (p : Platform) (inputs : List (Nat × HostInput)) (k : Nat),
    (p.schedule inputs)[k]? = p[k]?.map fun r => (inputsOf k inputs).foldl advance r

/-! ## The engine and the source's operations -/

/-- Derived: R101's equality of the two orders, the spec's own inference. UPDATE per byte gives the HashState of the
source's md5_update on the whole chunk. -/
def Obligations.UpdatesRefineSource : Prop :=
  ∀ (bytes : List Byte) (s : State), s.phase = .active →
    ∃ t, performAll (issueAll (Pseudo.updates bytes).expand) s = .next t
      ∧ t.hashState = md5Update s.hashState bytes ∧ t.phase = .active ∧ t.err = s.err ∧ t.ecode = s.ecode ∧ t.port = s.port

/-- Derived: R103, the spec's own inference. Every split of a byte sequence into chunks gives the same digest. -/
def Obligations.ChunkingIsTransparent : Prop :=
  ∀ (chunks : List (List Byte)), md5Finalize (chunks.foldl md5Update md5Init) = md5 chunks.flatten

/-- Derived from R104 to R107: FINALIZE leaves the digest of the source's md5_finalize. -/
def Obligations.FinalizeRefinesSource : Prop :=
  ∀ s : State, s.phase = .active → ∃ t, exec .finalize s = .next t ∧ digest t.cv = md5Finalize s.hashState

/-- Derived from R272, R84 and R103: the host protocol for one file, from every state and however the file is split, responds
with the 32 characters of to_hex of the MD5 digest of its bytes, and records no fault. -/
def Obligations.FileProtocolYieldsHexDigest : Prop :=
  ∀ (chunks : List (List Byte)) (s : State),
    ∃ o, observe (issueAll (fileProtocol chunks)) s = some o
      ∧ o.responses = (toHex (md5 chunks.flatten)).map zext16
      ∧ o.faulted = s.err ∧ o.firstFault = s.ecode ∧ o.final.phase = .finalized
end

