-- ==== Sys2Proof/Laws/Buffer.lean ====
section
/-! SUPPORT. The laws of the byte store BUF: a read after a write, and the canonical form, which every write keeps and
under which equal stores are equal lists. -/

namespace Sys2Proof.Machine

theorem Memory.lookup_erase_same (m : Memory) (k : Nat) : Memory.lookup (Memory.erase m k) k = 0x00#8 := by
  induction m with
  | nil => rfl
  | cons cell rest ih =>
    obtain ⟨key, b⟩ := cell
    by_cases h : key = k <;> simp [Memory.erase, Memory.lookup, h, ih]

theorem Memory.lookup_erase_other (m : Memory) (k j : Nat) (h : j ≠ k) :
    Memory.lookup (Memory.erase m k) j = Memory.lookup m j := by
  induction m with
  | nil => rfl
  | cons cell rest ih =>
    obtain ⟨key, b⟩ := cell
    by_cases hk : key = k
    · subst hk
      simp [Memory.erase, Memory.lookup, ih, Ne.symm h]
    · simp [Memory.erase, Memory.lookup, hk, ih]

theorem Memory.lookup_place_same (m : Memory) (k : Nat) (x : Byte) (h : ∀ cell ∈ m, cell.1 ≠ k) :
    Memory.lookup (Memory.place m k x) k = x := by
  induction m with
  | nil => simp [Memory.place, Memory.lookup]
  | cons cell rest ih =>
    obtain ⟨key, b⟩ := cell
    have hk : key ≠ k := h (key, b) (by simp)
    by_cases hlt : k < key
    · simp [Memory.place, Memory.lookup, hlt]
    · simpa [Memory.place, Memory.lookup, hlt, hk] using ih fun c hc => h c (by simp [hc])

theorem Memory.lookup_place_other (m : Memory) (k j : Nat) (x : Byte) (h : j ≠ k) :
    Memory.lookup (Memory.place m k x) j = Memory.lookup m j := by
  induction m with
  | nil => simp [Memory.place, Memory.lookup, Ne.symm h]
  | cons cell rest ih =>
    obtain ⟨key, b⟩ := cell
    by_cases hlt : k < key
    · simp [Memory.place, Memory.lookup, hlt, Ne.symm h]
    · simp [Memory.place, Memory.lookup, hlt, ih]

theorem Memory.erase_no_key (m : Memory) (k : Nat) : ∀ cell ∈ Memory.erase m k, cell.1 ≠ k := by
  induction m with
  | nil => simp [Memory.erase]
  | cons cell rest ih =>
    obtain ⟨key, b⟩ := cell
    by_cases hk : key = k
    · simpa [Memory.erase, hk] using ih
    · intro c hc
      simp only [Memory.erase, hk, if_false, List.mem_cons] at hc
      obtain rfl | hc := hc
      · exact hk
      · exact ih c hc

/-- A read after a write to the same index gives the byte written. -/
@[simp] theorem Memory.read_write_same (m : Memory) (a : BufIndex) (x : Byte) : (m.write a x).read a = x := by
  unfold Memory.write Memory.read
  split
  · next h => rw [Memory.lookup_erase_same, h]
  · exact Memory.lookup_place_same _ _ _ (Memory.erase_no_key _ _)

/-- A write leaves every other index alone. -/
theorem Memory.read_write_other (m : Memory) (a b : BufIndex) (x : Byte) (h : b ≠ a) :
    (m.write a x).read b = m.read b := by
  have hn : b.toNat ≠ a.toNat := fun e => h (BitVec.eq_of_toNat_eq e)
  unfold Memory.write Memory.read
  split
  · exact Memory.lookup_erase_other _ _ _ hn
  · rw [Memory.lookup_place_other _ _ _ _ hn, Memory.lookup_erase_other _ _ _ hn]

theorem Memory.read_write (m : Memory) (a b : BufIndex) (x : Byte) :
    (m.write a x).read b = if b = a then x else m.read b := by
  split
  · next h => rw [h, Memory.read_write_same]
  · next h => exact Memory.read_write_other m a b x h

theorem Memory.wfFrom_weaken (m : Memory) (low low' : Nat) (h : low' ≤ low) (hw : Memory.wfFrom low m = true) :
    Memory.wfFrom low' m = true := by
  cases m with
  | nil => rfl
  | cons cell rest =>
    obtain ⟨key, b⟩ := cell
    simp only [Memory.wfFrom, Bool.and_eq_true, decide_eq_true_eq] at hw ⊢
    exact ⟨⟨⟨by omega, hw.1.1.2⟩, hw.1.2⟩, hw.2⟩

theorem Memory.wfFrom_erase (m : Memory) (k : Nat) :
    ∀ low, Memory.wfFrom low m = true → Memory.wfFrom low (Memory.erase m k) = true := by
  induction m with
  | nil => simp [Memory.erase]
  | cons cell rest ih =>
    obtain ⟨key, b⟩ := cell
    intro low hw
    simp only [Memory.wfFrom, Bool.and_eq_true, decide_eq_true_eq] at hw
    by_cases hk : key = k
    · simp only [Memory.erase, hk, if_true]
      exact ih low (Memory.wfFrom_weaken rest (key + 1) low (by omega) hw.2)
    · simp only [Memory.erase, hk, if_false, Memory.wfFrom, Bool.and_eq_true, decide_eq_true_eq]
      exact ⟨hw.1, ih _ hw.2⟩

theorem Memory.wfFrom_place (m : Memory) (k : Nat) (x : Byte) (hk : k < 64) (hx : x ≠ 0x00#8)
    (hne : ∀ cell ∈ m, cell.1 ≠ k) :
    ∀ low, low ≤ k → Memory.wfFrom low m = true → Memory.wfFrom low (Memory.place m k x) = true := by
  induction m with
  | nil => intro low hl _; simp [Memory.place, Memory.wfFrom, hl, hk, hx]
  | cons cell rest ih =>
    obtain ⟨key, b⟩ := cell
    intro low hl hw
    have hkey : key ≠ k := hne (key, b) (by simp)
    simp only [Memory.wfFrom, Bool.and_eq_true, decide_eq_true_eq] at hw
    by_cases hlt : k < key
    · simp only [Memory.place, hlt, if_true, Memory.wfFrom, Bool.and_eq_true, decide_eq_true_eq]
      exact ⟨⟨⟨hl, hk⟩, hx⟩, ⟨⟨⟨hlt, hw.1.1.2⟩, hw.1.2⟩, hw.2⟩⟩
    · simp only [Memory.place, hlt, if_false, Memory.wfFrom, Bool.and_eq_true, decide_eq_true_eq]
      exact ⟨hw.1, ih (fun c hc => hne c (by simp [hc])) _ (by omega) hw.2⟩

/-- Every write keeps the canonical form. -/
theorem Memory.wf_write (m : Memory) (a : BufIndex) (x : Byte) (h : m.wf = true) : (m.write a x).wf = true := by
  unfold Memory.write
  split
  · exact Memory.wfFrom_erase m _ 0 h
  · next hx =>
    exact Memory.wfFrom_place _ _ _ a.isLt hx (Memory.erase_no_key _ _) 0 (Nat.zero_le _) (Memory.wfFrom_erase m _ 0 h)

/-- The canonical form holds of the store that lists nothing, which is BUF at reset. -/
theorem Memory.wf_nil : Memory.wf [] = true := rfl

theorem Memory.lookup_below (m : Memory) (j : Nat) :
    ∀ low, Memory.wfFrom low m = true → j < low → Memory.lookup m j = 0x00#8 := by
  induction m with
  | nil => intros; rfl
  | cons cell rest ih =>
    obtain ⟨key, b⟩ := cell
    intro low hw hj
    simp only [Memory.wfFrom, Bool.and_eq_true, decide_eq_true_eq] at hw
    rw [Memory.lookup, if_neg (by omega)]
    exact ih (key + 1) hw.2 (by omega)

theorem Memory.ext_lookup (m : Memory) :
    ∀ (m' : Memory) (low : Nat), Memory.wfFrom low m = true → Memory.wfFrom low m' = true →
      (∀ j, j < 64 → Memory.lookup m j = Memory.lookup m' j) → m = m' := by
  induction m with
  | nil =>
    intro m' low _ hw' h
    cases m' with
    | nil => rfl
    | cons cell rest =>
      obtain ⟨key, b⟩ := cell
      simp only [Memory.wfFrom, Bool.and_eq_true, decide_eq_true_eq] at hw'
      have := h key hw'.1.1.2
      simp only [Memory.lookup, if_true] at this
      exact absurd this.symm hw'.1.2
  | cons cell rest ih =>
    obtain ⟨key, b⟩ := cell
    intro m' low hw hw' h
    simp only [Memory.wfFrom, Bool.and_eq_true, decide_eq_true_eq] at hw
    obtain ⟨⟨⟨_, hk⟩, hb⟩, hrest⟩ := hw
    cases m' with
    | nil =>
      have := h key hk
      simp only [Memory.lookup, if_true] at this
      exact absurd this hb
    | cons cell' rest' =>
      obtain ⟨key', b'⟩ := cell'
      simp only [Memory.wfFrom, Bool.and_eq_true, decide_eq_true_eq] at hw'
      obtain ⟨⟨⟨_, hk'⟩, hb'⟩, hrest'⟩ := hw'
      have hkey : key = key' := by
        rcases Nat.lt_trichotomy key key' with hlt | heq | hgt
        · have := h key hk
          rw [Memory.lookup, if_pos rfl, Memory.lookup, if_neg (by omega),
            Memory.lookup_below rest' key (key' + 1) hrest' (by omega)] at this
          exact absurd this hb
        · exact heq
        · have := h key' hk'
          rw [Memory.lookup, if_neg (by omega), Memory.lookup_below rest key' (key + 1) hrest (by omega),
            Memory.lookup, if_pos rfl] at this
          exact absurd this.symm hb'
      subst hkey
      have hbb : b = b' := by simpa [Memory.lookup] using h key hk
      subst hbb
      congr 1
      refine ih rest' (key + 1) hrest hrest' fun j hj => ?_
      have := h j hj
      by_cases hjk : key = j
      · subst hjk
        rw [Memory.lookup_below rest key (key + 1) hrest (by omega),
          Memory.lookup_below rest' key (key + 1) hrest' (by omega)]
      · simpa [Memory.lookup, hjk] using this

/-- Under the canonical form equal stores are equal data. -/
theorem Memory.eq_of_read_eq (m m' : Memory) (hw : m.wf = true) (hw' : m'.wf = true)
    (h : ∀ a : BufIndex, m.read a = m'.read a) : m = m' := by
  refine Memory.ext_lookup m m' 0 hw hw' fun j hj => ?_
  have := h (BitVec.ofNat 6 j)
  simpa [Memory.read, Nat.mod_eq_of_lt hj] using this

@[simp] theorem Memory.length_slice (m : Memory) (n : Nat) : (m.slice n).length = n := by simp [Memory.slice]

theorem Memory.slice_succ (m : Memory) (n : Nat) : m.slice (n + 1) = m.slice n ++ [m.read (BitVec.ofNat 6 n)] := by
  simp [Memory.slice, List.range_succ]

/-- A slice depends on its own bytes only. -/
theorem Memory.slice_congr (m m' : Memory) (n : Nat)
    (h : ∀ k, k < n → m.read (BitVec.ofNat 6 k) = m'.read (BitVec.ofNat 6 k)) : m.slice n = m'.slice n :=
  List.map_congr_left fun k hk => h k (List.mem_range.mp hk)

/-- Writing at index `n` appends to the slice of the first `n` bytes. -/
theorem Memory.slice_write (m : Memory) (a : BufIndex) (x : Byte) :
    (m.write a x).slice (a.toNat + 1) = m.slice a.toNat ++ [x] := by
  rw [Memory.slice_succ]
  congr 1
  · refine Memory.slice_congr _ _ _ fun k hk => Memory.read_write_other _ _ _ _ fun e => ?_
    have := congrArg BitVec.toNat e
    simp only [BitVec.toNat_ofNat] at this
    have := a.isLt
    omega
  · rw [BitVec.ofNat_toNat, BitVec.setWidth_eq, Memory.read_write_same]

end Sys2Proof.Machine
end

