-- ==== Sys2Proof/Laws/Decode.lean ====
section
/-! SUPPORT. The fields of a word as numbers, and decoding in their terms. -/

namespace Sys2Proof.Machine

theorem opField_toNat (w : PortWord) : (opField w).toNat = wordOp w := by
  have := w.isLt
  simp only [opField, wordOp, BitVec.extractLsb'_toNat, Nat.shiftRight_eq_div_pow]
  omega

theorem rsvField_toNat (w : PortWord) : (rsvField w).toNat = wordRsv w := by
  simp [rsvField, wordRsv, BitVec.extractLsb'_toNat, Nat.shiftRight_eq_div_pow]

theorem argField_toNat (w : PortWord) : (argField w).toNat = wordArg w := by
  simp [argField, wordArg, BitVec.extractLsb'_toNat]

theorem rsvField_eq_zero (w : PortWord) : rsvField w = 0 ↔ wordRsv w = 0 := by
  rw [← rsvField_toNat, ← BitVec.toNat_inj]; rfl

theorem argField_eq_zero (w : PortWord) : argField w = 0 ↔ wordArg w = 0 := by
  rw [← argField_toNat, ← BitVec.toNat_inj]; rfl

/-- A word is its three fields. -/
theorem word_fields (w : PortWord) : w.toNat = 4096 * wordOp w + 256 * wordRsv w + wordArg w := by
  simp only [wordOp, wordRsv, wordArg]; omega

theorem wordOp_lt (w : PortWord) : wordOp w < 16 := by
  have := w.isLt
  simp only [wordOp]; omega

theorem wordArg_lt (w : PortWord) : wordArg w < 256 := by simp only [wordArg]; omega

/-- Two words with equal fields are equal. -/
theorem word_eq_of_fields {v w : PortWord} (h1 : wordOp v = wordOp w) (h2 : wordRsv v = wordRsv w)
    (h3 : wordArg v = wordArg w) : v = w := by
  apply BitVec.eq_of_toNat_eq
  rw [word_fields, word_fields w, h1, h2, h3]

/-- The fields of an encoded command (R70): its opcode, 0, its ARG. -/
theorem encode_fields (i : Instr) :
    wordOp (encode i) = i.opcode ∧ wordRsv (encode i) = 0 ∧ wordArg (encode i) = i.arg.toNat := by
  cases i <;>
    simp only [encode, wordOp, wordRsv, wordArg, Instr.opcode, Instr.arg, BitVec.toNat_append, BitVec.toNat_ofNat,
      Nat.shiftLeft_eq] <;> (try decide)
  all_goals
    rename_i x
    have hx := x.isLt
    have hor : ∀ c : Nat, (c * 2 ^ 8 ||| x.toNat) = c * 2 ^ 8 + x.toNat := fun c => by
      rw [Nat.mul_comm, Nat.two_pow_add_eq_or_of_lt hx]
    rw [hor]
    refine ⟨?_, ?_, ?_⟩ <;> omega

/-- Decoding a word whose RSV is 0, by its opcode. -/
theorem decode_of_rsv {w : PortWord} (h : wordRsv w = 0) : decode w = decodeOp (opField w) (argField w) :=
  if_pos ((rsvField_eq_zero w).2 h)

theorem decode_of_rsv_ne {w : PortWord} (h : wordRsv w ≠ 0) : decode w = .fault .illegalCommand :=
  if_neg fun e => h ((rsvField_eq_zero w).1 e)

theorem decodeNoArg_eq (i : Instr) (w : PortWord) :
    decodeNoArg i (argField w) = if wordArg w = 0 then .command i else .fault .illegalCommand := by
  simp only [decodeNoArg, argField_eq_zero]

theorem decodeIndexed_eq (top : Nat) (mk : Byte → Instr) (w : PortWord) :
    decodeIndexed top mk (argField w) = if wordArg w ≤ top then .command (mk (argField w)) else .fault .badArgument := by
  simp only [decodeIndexed, argField_toNat]

/-- Decoding in terms of the numbers OP, RSV and ARG. -/
theorem decode_eq (w : PortWord) :
    decode w =
      if wordRsv w ≠ 0 then .fault .illegalCommand
      else if wordOp w = 0 then (if wordArg w = 0 then .command .nop else .fault .illegalCommand)
      else if wordOp w = 1 then (if wordArg w = 0 then .command .init else .fault .illegalCommand)
      else if wordOp w = 2 then .command (.update (argField w))
      else if wordOp w = 3 then (if wordArg w = 0 then .command .finalize else .fault .illegalCommand)
      else if wordOp w = 4 then (if wordArg w = 0 then .command .rdstat else .fault .illegalCommand)
      else if wordOp w = 5 then (if wordArg w ≤ 7 then .command (.rdlen (argField w)) else .fault .badArgument)
      else if wordOp w = 6 then (if wordArg w ≤ 15 then .command (.rddig (argField w)) else .fault .badArgument)
      else if wordOp w = 7 then (if wordArg w ≤ 31 then .command (.rdhex (argField w)) else .fault .badArgument)
      else if wordOp w = 8 then (if wordArg w ≤ 15 then .command (.hexdig (argField w)) else .fault .badArgument)
      else .fault .illegalCommand := by
  by_cases hr : wordRsv w = 0
  · rw [decode_of_rsv hr, if_neg (not_not.2 hr)]
    have hop := opField_toNat w
    have hlt := wordOp_lt w
    rw [decodeOp, hop]
    generalize wordOp w = op at hlt
    interval_cases op <;> simp [decodeNoArg_eq, decodeIndexed_eq]
  · rw [decode_of_rsv_ne hr, if_pos hr]

/-- What is known of a word that decodes to a command: its fields are the command's, RSV is 0, the operand is in range. -/
theorem decode_command {w : PortWord} {i : Instr} (h : decode w = .command i) :
    i.opcode = wordOp w ∧ i.arg.toNat = wordArg w ∧ wordRsv w = 0 ∧ i.wellFormed = true := by
  have ha := argField_toNat w
  have hlt := wordOp_lt w
  rw [decode_eq] at h
  generalize wordOp w = op at *
  by_cases hr : wordRsv w = 0
  · interval_cases op <;> simp only [hr, ne_eq, not_true, if_false, if_true, OfNat.ofNat_ne_zero, OfNat.ofNat_ne_one,
      reduceCtorEq, Nat.reduceEqDiff, one_ne_zero] at h
    all_goals first
      | (split at h <;> cases h; simp [Instr.opcode, Instr.arg, Instr.wellFormed, *])
      | (cases h; simp [Instr.opcode, Instr.arg, Instr.wellFormed, *])
  · simp [hr] at h

end Sys2Proof.Machine
end

