-- ==== Sys2Proof/Laws/Flags.lean ====
section
/-! SUPPORT. What STATUS shows of the registers it is built from (R30). -/

namespace Sys2Proof.Machine

/-- The fields of STATUS: BUFLEN, PHASE, ECODE, the reserved bits, ERR. -/
theorem State.status_fields (s : State) :
    s.status.extractLsb' 0 6 = s.buflen ∧ s.status.extractLsb' 6 2 = s.phase.code
      ∧ s.status.extractLsb' 8 3 = ecodeBits s.ecode ∧ s.status.extractLsb' 11 4 = 0 ∧ s.status.getLsbD 15 = s.err := by
  obtain ⟨cv, len, buf, buflen, phase, err, ecode, reply, port⟩ := s
  simp only [State.status]
  revert buflen
  rcases ecode with _ | (_ | _ | _ | _ | _) <;> cases err <;> cases phase <;> decide +kernel

end Sys2Proof.Machine
end

