-- ==== Sys2Proof/Laws/State.lean ====
section
/-! SUPPORT. One lemma per field of State per named update, so that no later proof unfolds a record update. -/

namespace Sys2Proof.Machine

@[simp] theorem State.silent_cv (s : State) : (s.silent).cv = s.cv := rfl
@[simp] theorem State.silent_len (s : State) : (s.silent).len = s.len := rfl
@[simp] theorem State.silent_buf (s : State) : (s.silent).buf = s.buf := rfl
@[simp] theorem State.silent_buflen (s : State) : (s.silent).buflen = s.buflen := rfl
@[simp] theorem State.silent_phase (s : State) : (s.silent).phase = s.phase := rfl
@[simp] theorem State.silent_err (s : State) : (s.silent).err = s.err := rfl
@[simp] theorem State.silent_ecode (s : State) : (s.silent).ecode = s.ecode := rfl
@[simp] theorem State.silent_reply (s : State) : (s.silent).reply = Reply.none := rfl
@[simp] theorem State.silent_port (s : State) : (s.silent).port = s.port := rfl

@[simp] theorem State.respond_cv (s : State) (v : PortWord) : (s.respond v).cv = s.cv := rfl
@[simp] theorem State.respond_len (s : State) (v : PortWord) : (s.respond v).len = s.len := rfl
@[simp] theorem State.respond_buf (s : State) (v : PortWord) : (s.respond v).buf = s.buf := rfl
@[simp] theorem State.respond_buflen (s : State) (v : PortWord) : (s.respond v).buflen = s.buflen := rfl
@[simp] theorem State.respond_phase (s : State) (v : PortWord) : (s.respond v).phase = s.phase := rfl
@[simp] theorem State.respond_err (s : State) (v : PortWord) : (s.respond v).err = s.err := rfl
@[simp] theorem State.respond_ecode (s : State) (v : PortWord) : (s.respond v).ecode = s.ecode := rfl
@[simp] theorem State.respond_reply (s : State) (v : PortWord) : (s.respond v).reply = Reply.response v := rfl
@[simp] theorem State.respond_port (s : State) (v : PortWord) : (s.respond v).port = s.port := rfl

@[simp] theorem State.raiseFault_cv (s : State) (c : FaultCode) : (s.raiseFault c).cv = s.cv := rfl
@[simp] theorem State.raiseFault_len (s : State) (c : FaultCode) : (s.raiseFault c).len = s.len := rfl
@[simp] theorem State.raiseFault_buf (s : State) (c : FaultCode) : (s.raiseFault c).buf = s.buf := rfl
@[simp] theorem State.raiseFault_buflen (s : State) (c : FaultCode) : (s.raiseFault c).buflen = s.buflen := rfl
@[simp] theorem State.raiseFault_phase (s : State) (c : FaultCode) : (s.raiseFault c).phase = s.phase := rfl
@[simp] theorem State.raiseFault_err (s : State) (c : FaultCode) : (s.raiseFault c).err = true := rfl
@[simp] theorem State.raiseFault_ecode (s : State) (c : FaultCode) : (s.raiseFault c).ecode = if s.err then s.ecode else some c := rfl
@[simp] theorem State.raiseFault_reply (s : State) (c : FaultCode) : (s.raiseFault c).reply = Reply.fault c := rfl
@[simp] theorem State.raiseFault_port (s : State) (c : FaultCode) : (s.raiseFault c).port = s.port := rfl

@[simp] theorem State.startStream_cv (s : State) : (s.startStream).cv = CV.initial := rfl
@[simp] theorem State.startStream_len (s : State) : (s.startStream).len = 0 := rfl
@[simp] theorem State.startStream_buf (s : State) : (s.startStream).buf = s.buf := rfl
@[simp] theorem State.startStream_buflen (s : State) : (s.startStream).buflen = 0 := rfl
@[simp] theorem State.startStream_phase (s : State) : (s.startStream).phase = Phase.active := rfl
@[simp] theorem State.startStream_err (s : State) : (s.startStream).err = s.err := rfl
@[simp] theorem State.startStream_ecode (s : State) : (s.startStream).ecode = s.ecode := rfl
@[simp] theorem State.startStream_reply (s : State) : (s.startStream).reply = s.reply := rfl
@[simp] theorem State.startStream_port (s : State) : (s.startStream).port = s.port := rfl

@[simp] theorem State.finish_cv (s : State) : (s.finish).cv = compressBlocks s.cv s.tail := rfl
@[simp] theorem State.finish_len (s : State) : (s.finish).len = s.len := rfl
@[simp] theorem State.finish_buf (s : State) : (s.finish).buf = s.buf := rfl
@[simp] theorem State.finish_buflen (s : State) : (s.finish).buflen = 0 := rfl
@[simp] theorem State.finish_phase (s : State) : (s.finish).phase = Phase.finalized := rfl
@[simp] theorem State.finish_err (s : State) : (s.finish).err = s.err := rfl
@[simp] theorem State.finish_ecode (s : State) : (s.finish).ecode = s.ecode := rfl
@[simp] theorem State.finish_reply (s : State) : (s.finish).reply = s.reply := rfl
@[simp] theorem State.finish_port (s : State) : (s.finish).port = s.port := rfl

@[simp] theorem State.resetInput_cv (s : State) : (s.resetInput).cv = CV.initial := rfl
@[simp] theorem State.resetInput_len (s : State) : (s.resetInput).len = 0 := rfl
@[simp] theorem State.resetInput_buf (s : State) : (s.resetInput).buf = [] := rfl
@[simp] theorem State.resetInput_buflen (s : State) : (s.resetInput).buflen = 0 := rfl
@[simp] theorem State.resetInput_phase (s : State) : (s.resetInput).phase = Phase.idle := rfl
@[simp] theorem State.resetInput_err (s : State) : (s.resetInput).err = false := rfl
@[simp] theorem State.resetInput_ecode (s : State) : (s.resetInput).ecode = Option.none := rfl
@[simp] theorem State.resetInput_reply (s : State) : (s.resetInput).reply = Reply.none := rfl
@[simp] theorem State.resetInput_port (s : State) : (s.resetInput).port = s.port := rfl

@[simp] theorem State.issue_cv (s : State) (e : HostInput) : (s.issue e).cv = s.cv := rfl
@[simp] theorem State.issue_len (s : State) (e : HostInput) : (s.issue e).len = s.len := rfl
@[simp] theorem State.issue_buf (s : State) (e : HostInput) : (s.issue e).buf = s.buf := rfl
@[simp] theorem State.issue_buflen (s : State) (e : HostInput) : (s.issue e).buflen = s.buflen := rfl
@[simp] theorem State.issue_phase (s : State) (e : HostInput) : (s.issue e).phase = s.phase := rfl
@[simp] theorem State.issue_err (s : State) (e : HostInput) : (s.issue e).err = s.err := rfl
@[simp] theorem State.issue_ecode (s : State) (e : HostInput) : (s.issue e).ecode = s.ecode := rfl
@[simp] theorem State.issue_reply (s : State) (e : HostInput) : (s.issue e).reply = s.reply := rfl
@[simp] theorem State.issue_port (s : State) (e : HostInput) : (s.issue e).port = e :: s.port := rfl

@[simp] theorem State.absorb_phase (s : State) (x : Byte) : (s.absorb x).phase = s.phase := by
  unfold State.absorb; dsimp only; split <;> rfl
@[simp] theorem State.absorb_err (s : State) (x : Byte) : (s.absorb x).err = s.err := by
  unfold State.absorb; dsimp only; split <;> rfl
@[simp] theorem State.absorb_ecode (s : State) (x : Byte) : (s.absorb x).ecode = s.ecode := by
  unfold State.absorb; dsimp only; split <;> rfl
@[simp] theorem State.absorb_reply (s : State) (x : Byte) : (s.absorb x).reply = s.reply := by
  unfold State.absorb; dsimp only; split <;> rfl
@[simp] theorem State.absorb_port (s : State) (x : Byte) : (s.absorb x).port = s.port := by
  unfold State.absorb; dsimp only; split <;> rfl
@[simp] theorem State.absorb_len (s : State) (x : Byte) : (s.absorb x).len = s.len + 8 := by
  unfold State.absorb; dsimp only; split <;> rfl
@[simp] theorem State.absorb_buf (s : State) (x : Byte) : (s.absorb x).buf = s.buf.write s.buflen x := by
  unfold State.absorb; dsimp only; split <;> rfl

/-- BUFLEN after one byte (R102): one more, and 0 where that is 64. Both are the 6-bit successor. -/
@[simp] theorem State.absorb_buflen (s : State) (x : Byte) : (s.absorb x).buflen = s.buflen + 1 := by
  unfold State.absorb
  dsimp only
  split
  · apply BitVec.eq_of_toNat_eq; simp; omega
  · apply BitVec.eq_of_toNat_eq; simp

/-- CV after one byte (R102): compressed exactly when the byte is the 64th of its block. -/
theorem State.absorb_cv (s : State) (x : Byte) :
    (s.absorb x).cv =
      if s.buflen.toNat + 1 = 64 then compress s.cv ((s.buf.write s.buflen x).slice 64) else s.cv := by
  unfold State.absorb; dsimp only; split <;> rfl

end Sys2Proof.Machine
end

