-- ==== Sys2Proof/Laws/Ops.lean ====
section
/-! SUPPORT. One lemma per shared operation that says everything it can do, for proofs to cite instead of unfolding it. -/

namespace Sys2Proof.Machine

@[simp] theorem firstFault_nil : firstFault [] = none := rfl
@[simp] theorem firstFault_some (c : FaultCode) (rest : List (Option FaultCode)) : firstFault (some c :: rest) = some c := rfl
@[simp] theorem firstFault_none (rest : List (Option FaultCode)) : firstFault (none :: rest) = firstFault rest := rfl

theorem argFault_le {top : Nat} {k : Byte} (h : k.toNat ≤ top) : argFault top k = none := if_pos h
theorem argFault_gt {top : Nat} {k : Byte} (h : top < k.toNat) : argFault top k = some .badArgument := if_neg (by omega)

@[simp] theorem streamFault_idle : streamFault .idle = some .noStream := rfl
@[simp] theorem streamFault_active : streamFault .active = none := rfl
@[simp] theorem streamFault_finalized : streamFault .finalized = some .streamConsumed := rfl
@[simp] theorem digestFault_idle : digestFault .idle = some .digestNotReady := rfl
@[simp] theorem digestFault_active : digestFault .active = some .digestNotReady := rfl
@[simp] theorem digestFault_finalized : digestFault .finalized = none := rfl

/-- A guarded command that passes its checks takes its effect. -/
theorem guarded_pass {checks : List (Option FaultCode)} {s effect : State} (h : firstFault checks = none) :
    guarded checks s effect = .next effect := by simp [guarded, h]

/-- A guarded command that meets a fault raises it and nothing else. -/
theorem guarded_raise {checks : List (Option FaultCode)} {s effect : State} {c : FaultCode} (h : firstFault checks = some c) :
    guarded checks s effect = .next (s.raiseFault c) := by simp [guarded, h]

/-- All that a guarded command can do. -/
theorem guarded_cases {checks : List (Option FaultCode)} {s effect t : State} (h : guarded checks s effect = .next t) :
    (∃ c, firstFault checks = some c ∧ t = s.raiseFault c) ∨ (firstFault checks = none ∧ t = effect) := by
  cases hf : firstFault checks with
  | none => rw [guarded_pass hf] at h; injection h with h; exact .inr ⟨rfl, h.symm⟩
  | some c => rw [guarded_raise hf] at h; injection h with h; exact .inl ⟨c, rfl, h.symm⟩

theorem execNop_eq (s : State) : execNop s = .next s.silent := rfl
theorem execInit_eq (s : State) : execInit s = .next s.startStream.silent := rfl
theorem execRdstat_eq (s : State) : execRdstat s = .next (s.respond s.status) := rfl

/-- UPDATE in each phase (R112). -/
theorem execUpdate_eq (d : Byte) (s : State) :
    execUpdate d s = .next (match s.phase with
      | .idle => s.raiseFault .noStream
      | .active => (s.absorb d).silent
      | .finalized => s.raiseFault .streamConsumed) := by
  unfold execUpdate
  cases s.phase <;> rfl

/-- FINALIZE in each phase (R113). -/
theorem execFinalize_eq (s : State) :
    execFinalize s = .next (match s.phase with
      | .idle => s.raiseFault .noStream
      | .active => s.finish.silent
      | .finalized => s.raiseFault .streamConsumed) := by
  unfold execFinalize
  cases s.phase <;> rfl

/-- RDLEN (R181). -/
theorem execRdlen_eq (k : Byte) (s : State) :
    execRdlen k s = .next (if k.toNat ≤ 7 then s.respond (zext16 (byteOf s.len k.toNat)) else s.raiseFault .badArgument) := by
  unfold execRdlen argFault
  split <;> rfl

/-- HEXDIG (R202). -/
theorem execHexdig_eq (n : Byte) (s : State) :
    execHexdig n s = .next (if n.toNat ≤ 15 then s.respond (zext16 (hexdigit (lowNibble n))) else s.raiseFault .badArgument) := by
  unfold execHexdig argFault
  split <;> rfl

/-- RDDIG: the index before the phase (R182, R226). -/
theorem execRddig_eq (k : Byte) (s : State) :
    execRddig k s = .next (if k.toNat ≤ 15 then
        (if s.phase = .finalized then s.respond (zext16 (digestByte s.cv k.toNat)) else s.raiseFault .digestNotReady)
      else s.raiseFault .badArgument) := by
  unfold execRddig argFault
  split
  · cases s.phase <;> rfl
  · rfl

/-- RDHEX: the index before the phase (R203, R226). -/
theorem execRdhex_eq (j : Byte) (s : State) :
    execRdhex j s = .next (if j.toNat ≤ 31 then
        (if s.phase = .finalized then s.respond (zext16 (hexChar s.cv j.toNat)) else s.raiseFault .digestNotReady)
      else s.raiseFault .badArgument) := by
  unfold execRdhex argFault
  split
  · cases s.phase <;> rfl
  · rfl

/-- Every command has a next state in every state, whatever its operand (R267). -/
theorem exec_is_next (i : Instr) (s : State) : ∃ t, exec i s = .next t := by
  cases i <;> simp only [exec, execNop_eq, execInit_eq, execRdstat_eq, execUpdate_eq, execFinalize_eq, execRdlen_eq,
    execHexdig_eq, execRddig_eq, execRdhex_eq] <;> exact ⟨_, rfl⟩

/-- All that a command can do: raise a fault, or take its own effect. -/
theorem exec_cases {i : Instr} {s t : State} (h : exec i s = .next t) :
    (∃ c, t = s.raiseFault c)
    ∨ (i = .nop ∧ t = s.silent)
    ∨ (i = .init ∧ t = s.startStream.silent)
    ∨ (∃ d, i = .update d ∧ s.phase = .active ∧ t = (s.absorb d).silent)
    ∨ (i = .finalize ∧ s.phase = .active ∧ t = s.finish.silent)
    ∨ (i = .rdstat ∧ t = s.respond s.status)
    ∨ (∃ k, i = .rdlen k ∧ k.toNat ≤ 7 ∧ t = s.respond (zext16 (byteOf s.len k.toNat)))
    ∨ (∃ k, i = .rddig k ∧ k.toNat ≤ 15 ∧ s.phase = .finalized ∧ t = s.respond (zext16 (digestByte s.cv k.toNat)))
    ∨ (∃ j, i = .rdhex j ∧ j.toNat ≤ 31 ∧ s.phase = .finalized ∧ t = s.respond (zext16 (hexChar s.cv j.toNat)))
    ∨ (∃ n, i = .hexdig n ∧ n.toNat ≤ 15 ∧ t = s.respond (zext16 (hexdigit (lowNibble n)))) := by
  cases i with
  | nop => injection h with h; subst h; simp
  | init => injection h with h; subst h; simp
  | rdstat => injection h with h; subst h; simp
  | update d =>
    rw [exec, execUpdate_eq] at h
    cases hp : s.phase <;> rw [hp] at h <;> injection h with h <;> subst h
    · exact .inl ⟨_, rfl⟩
    · exact .inr (.inr (.inr (.inl ⟨d, rfl, rfl, rfl⟩)))
    · exact .inl ⟨_, rfl⟩
  | finalize =>
    rw [exec, execFinalize_eq] at h
    cases hp : s.phase <;> rw [hp] at h <;> injection h with h <;> subst h
    · exact .inl ⟨_, rfl⟩
    · exact .inr (.inr (.inr (.inr (.inl ⟨rfl, rfl, rfl⟩))))
    · exact .inl ⟨_, rfl⟩
  | rdlen k =>
    rw [exec, execRdlen_eq] at h
    split at h <;> injection h with h <;> subst h
    · next hk => exact .inr (.inr (.inr (.inr (.inr (.inr (.inl ⟨k, rfl, hk, rfl⟩))))))
    · exact .inl ⟨_, rfl⟩
  | hexdig n =>
    rw [exec, execHexdig_eq] at h
    split at h <;> injection h with h <;> subst h
    · next hk => exact .inr (.inr (.inr (.inr (.inr (.inr (.inr (.inr (.inr ⟨n, rfl, hk, rfl⟩))))))))
    · exact .inl ⟨_, rfl⟩
  | rddig k =>
    rw [exec, execRddig_eq] at h
    split at h
    · next hk =>
      split at h <;> injection h with h <;> subst h
      · next hp => exact .inr (.inr (.inr (.inr (.inr (.inr (.inr (.inl ⟨k, rfl, hk, hp, rfl⟩)))))))
      · exact .inl ⟨_, rfl⟩
    · injection h with h; subst h; exact .inl ⟨_, rfl⟩
  | rdhex j =>
    rw [exec, execRdhex_eq] at h
    split at h
    · next hk =>
      split at h <;> injection h with h <;> subst h
      · next hp => exact .inr (.inr (.inr (.inr (.inr (.inr (.inr (.inr (.inl ⟨j, rfl, hk, hp, rfl⟩))))))))
      · exact .inl ⟨_, rfl⟩
    · injection h with h; subst h; exact .inl ⟨_, rfl⟩

@[simp] theorem perform_command (w : PortWord) (s : State) : perform (.command w) s = performWord w s := rfl
@[simp] theorem perform_reset (s : State) : perform .reset s = .next s.resetInput := rfl
@[simp] theorem perform_foreign (w : PortWord) (s : State) : perform (.foreignCommand w) s = .refused .secondIssuer := rfl
@[simp] theorem perform_resetDuring (w : PortWord) (s : State) :
    perform (.resetDuring w) s = .refused .resetDuringCommand := rfl

/-- A word that decodes to a command is that command. -/
theorem performWord_command {w : PortWord} {i : Instr} (s : State) (h : decode w = .command i) :
    performWord w s = exec i s := by rw [performWord, h]

/-- A word that decodes to a fault raises it. -/
theorem performWord_fault {w : PortWord} {c : FaultCode} (s : State) (h : decode w = .fault c) :
    performWord w s = .next (s.raiseFault c) := by rw [performWord, h]

/-- All that a command word can do: raise a fault, or be its command. -/
theorem performWord_cases {w : PortWord} {s t : State} (h : performWord w s = .next t) :
    (∃ c, decode w = .fault c ∧ t = s.raiseFault c) ∨ (∃ i, decode w = .command i ∧ exec i s = .next t) := by
  cases hd : decode w with
  | fault c => rw [performWord_fault s hd] at h; injection h with h; exact .inl ⟨c, rfl, h.symm⟩
  | command i => rw [performWord_command s hd] at h; exact .inr ⟨i, rfl, h⟩

theorem performWord_is_next (w : PortWord) (s : State) : ∃ t, performWord w s = .next t := by
  cases hd : decode w with
  | fault c => exact ⟨_, performWord_fault s hd⟩
  | command i => rw [performWord_command s hd]; exact exec_is_next i s

theorem fetch_nil {s : State} (h : s.port = []) : fetch s = none := by rw [fetch, h]

theorem fetch_cons {s : State} {e : HostInput} {rest : List HostInput} (h : s.port = e :: rest) :
    fetch s = some (e, { s with port := rest }) := by rw [fetch, h]

/-- All that a step can do: hold the state, perform a word, reset, or be refused. -/
theorem step_cases {s t : State} (h : step s = .next t) :
    (s.port = [] ∧ t = s)
    ∨ (∃ w rest, s.port = .command w :: rest ∧ performWord w { s with port := rest } = .next t)
    ∨ (∃ rest, s.port = .reset :: rest ∧ t = State.resetInput { s with port := rest }) := by
  cases hp : s.port with
  | nil =>
    rw [step, fetch_nil hp] at h
    injection h with h
    exact .inl ⟨rfl, h.symm⟩
  | cons e rest =>
    rw [step, fetch_cons hp] at h
    cases e with
    | command w => exact .inr (.inl ⟨w, rest, rfl, h⟩)
    | reset => injection h with h; exact .inr (.inr ⟨rest, rfl, h.symm⟩)
    | foreignCommand w => cases h
    | resetDuring w => cases h

end Sys2Proof.Machine
end

