-- ==== Sys2Proof/Laws/PerInstr.lean ====
section
/-! SUPPORT. A statement for every command as syntax: the three fields of its encoding (R70, R71, R73). -/

namespace Sys2Proof.Laws.Layout

/-- OP is the command's opcode, RSV is 0 and ARG is its operand, or 0 where it has none. -/
def Statement (i : Instr) : Prop := (opField (encode i)).toNat = i.opcode ∧ rsvField (encode i) = 0 ∧ argField (encode i) = i.arg

/-- The fields of an opcode byte joined to an operand byte. -/
theorem fields_append (c d : Byte) :
    opField (c ++ d) = c.extractLsb' 4 4 ∧ rsvField (c ++ d) = c.extractLsb' 0 4 ∧ argField (c ++ d) = d := by
  refine ⟨?_, ?_, ?_⟩ <;> ext k hk <;>
    simp only [opField, rsvField, argField, BitVec.getElem_extractLsb', BitVec.getLsbD_append]
  · rw [if_neg (by omega), show 12 + k - 8 = 4 + k by omega]
  · rw [if_neg (by omega), show 8 + k - 8 = 0 + k by omega]
  · rw [if_pos (by omega), Nat.zero_add, BitVec.getLsbD_eq_getElem]

theorem nop : Statement .nop := by unfold Statement; decide

theorem init : Statement .init := by unfold Statement; decide

theorem update (d : Byte) : Statement (.update d) := by
  obtain ⟨h1, h2, h3⟩ := fields_append 0x20#8 d
  exact ⟨congrArg BitVec.toNat h1, h2, h3⟩

theorem finalize : Statement .finalize := by unfold Statement; decide

theorem rdstat : Statement .rdstat := by unfold Statement; decide

theorem rdlen (k : Byte) : Statement (.rdlen k) := by
  obtain ⟨h1, h2, h3⟩ := fields_append 0x50#8 k
  exact ⟨congrArg BitVec.toNat h1, h2, h3⟩

theorem rddig (k : Byte) : Statement (.rddig k) := by
  obtain ⟨h1, h2, h3⟩ := fields_append 0x60#8 k
  exact ⟨congrArg BitVec.toNat h1, h2, h3⟩

theorem rdhex (j : Byte) : Statement (.rdhex j) := by
  obtain ⟨h1, h2, h3⟩ := fields_append 0x70#8 j
  exact ⟨congrArg BitVec.toNat h1, h2, h3⟩

theorem hexdig (n : Byte) : Statement (.hexdig n) := by
  obtain ⟨h1, h2, h3⟩ := fields_append 0x80#8 n
  exact ⟨congrArg BitVec.toNat h1, h2, h3⟩

end Sys2Proof.Laws.Layout
end

