-- ==== Sys2Proof/Laws/Source.lean ====
section
/-! SUPPORT. The laws of the source's block loop and of the tail's blocks, for statements of refinement. -/

namespace Sys2Proof.Machine

/-- With fewer than 64 bytes the loop stops. -/
theorem consumeBlocks_short (turns : Nat) (cv : CV) (q : List Byte) (h : q.length < 64) :
    consumeBlocks turns cv q = (cv, q) := by
  cases turns with
  | zero => rfl
  | succ n => rw [consumeBlocks, if_neg (by omega)]

/-- Any number of turns that is enough gives the same. -/
theorem consumeBlocks_turns (n m : Nat) (cv : CV) (q : List Byte) (hn : q.length ≤ n) (hm : q.length ≤ m) :
    consumeBlocks n cv q = consumeBlocks m cv q := by
  induction n generalizing m cv q with
  | zero => rw [consumeBlocks_short _ _ _ (by omega), consumeBlocks_short _ _ _ (by omega)]
  | succ n ih =>
    by_cases h : 64 ≤ q.length
    · cases m with
      | zero => omega
      | succ m =>
        simp only [consumeBlocks, h, if_true]
        exact ih _ _ _ (by simp; omega) (by simp; omega)
    · rw [consumeBlocks_short _ _ _ (by omega), consumeBlocks_short _ _ _ (by omega)]

/-- What is left is less than a block. -/
theorem consumeBlocks_rest_lt (turns : Nat) (cv : CV) (q : List Byte) (h : q.length ≤ turns) :
    (consumeBlocks turns cv q).2.length < 64 := by
  induction turns generalizing cv q with
  | zero => simp [consumeBlocks]; omega
  | succ n ih =>
    simp only [consumeBlocks]
    split
    · exact ih _ _ (by simp; omega)
    · dsimp only; omega

/-- A loop over `q ++ r` is the loop over `q`, then the loop over what is left and `r`. -/
theorem consumeBlocks_append (turns : Nat) (cv : CV) (q r : List Byte) (hn : q.length ≤ turns) :
    consumeBlocks (q ++ r).length cv (q ++ r) =
      consumeBlocks ((consumeBlocks turns cv q).2 ++ r).length (consumeBlocks turns cv q).1
        ((consumeBlocks turns cv q).2 ++ r) := by
  induction turns generalizing cv q with
  | zero => rw [consumeBlocks_short 0 cv q (by omega)]
  | succ n ih =>
    by_cases h : 64 ≤ q.length
    · simp only [consumeBlocks, h, if_true]
      rw [← ih _ _ (by simp; omega), show (q ++ r).length = ((q ++ r).length - 1) + 1 by simp; omega]
      simp only [consumeBlocks]
      rw [if_pos (by simp; omega), List.take_append_of_le_length h, List.drop_append_of_le_length h]
      apply consumeBlocks_turns
      · simp; omega
      · simp
    · rw [consumeBlocks_short (n + 1) cv q (by omega)]

/-- A tail of one block (R106). -/
theorem compressBlocks_one (cv : CV) (l : List Byte) (h : l.length = 64) : compressBlocks cv l = compress cv l := by
  simp [compressBlocks, h, List.range_succ]
  rw [← h, List.take_length]

/-- A tail of two blocks (R106). -/
theorem compressBlocks_two (cv : CV) (a b : List Byte) (ha : a.length = 64) (hb : b.length = 64) :
    compressBlocks cv (a ++ b) = compress (compress cv a) b := by
  simp [compressBlocks, ha, hb, List.range_succ]
  rw [List.take_of_length_le (by omega)]

end Sys2Proof.Machine
end

