-- ==== Sys2Proof/Tests/Slice0.lean ====
section
/-! SUPPORT. Tests. Expected values are those of spec/95_test_vectors.md or are worked out from the rule named. The theorems
named test_witness_... show that the hypotheses of an obligation can be met. -/

namespace Sys2Proof.Tests
open Sys2Proof.Machine

/-! ## Helpers -/

/-- BUF holding "abc" (95 section 1.2). -/
def abcBuffer : Memory := [(0, 0x61#8), (1, 0x62#8), (2, 0x63#8)]

/-- ACTIVE after INIT and UPDATES "abc". -/
def abcActive : State := { State.reset with phase := .active, buf := abcBuffer, buflen := 3, len := 24 }

/-- FINALIZED with the digest of "abc" (95 section 1.2). -/
def abcDone : State :=
  { State.reset with phase := .finalized, len := 24, cv := ⟨0x98500190#32, 0xb04fd23c#32, 0x7d3f96d6#32, 0x727fe128#32⟩ }

/-- BUF = 63 × 'a', BUFLEN = 63 and LEN about to wrap (95 section 2.2). -/
def wrapState : State :=
  { State.reset with
    phase := .active
    buf := (List.range 63).map fun k => (k, 0x61#8)
    buflen := 63
    len := 0xFFFFFFFFFFFFFFF8#64 }

/-- The reply of a result, where it is a next state. -/
def replyOf (r : Result) : Option Reply := (nextState r).map State.reply

/-! ## Well-formedness: one ill-formed term for each check (R72) -/

theorem test_wellFormed_rdlen : (Instr.rdlen 7).wellFormed = true ∧ (Instr.rdlen 8).wellFormed = false := by decide
theorem test_wellFormed_rddig : (Instr.rddig 15).wellFormed = true ∧ (Instr.rddig 16).wellFormed = false := by decide
theorem test_wellFormed_rdhex : (Instr.rdhex 31).wellFormed = true ∧ (Instr.rdhex 32).wellFormed = false := by decide
theorem test_wellFormed_hexdig : (Instr.hexdig 15).wellFormed = true ∧ (Instr.hexdig 16).wellFormed = false := by decide

/-! ## Decoding: a word of each constructor, bit by bit from R73 and opcode_table.json -/

theorem test_decode_nop : decode 0b0000000000000000#16 = .command .nop := by decide
theorem test_decode_init : decode 0b0001000000000000#16 = .command .init := by decide
theorem test_decode_update : decode 0b0010000001100001#16 = .command (.update 0x61) := by decide
theorem test_decode_finalize : decode 0b0011000000000000#16 = .command .finalize := by decide
theorem test_decode_rdstat : decode 0b0100000000000000#16 = .command .rdstat := by decide
theorem test_decode_rdlen : decode 0b0101000000000110#16 = .command (.rdlen 6) := by decide
theorem test_decode_rddig : decode 0b0110000000001101#16 = .command (.rddig 13) := by decide
theorem test_decode_rdhex : decode 0b0111000000011101#16 = .command (.rdhex 29) := by decide
theorem test_decode_hexdig : decode 0b1000000000001011#16 = .command (.hexdig 11) := by decide

/-- The faults of 95 section 2.1. -/
theorem test_decode_faults :
    decode 0x0100#16 = .fault .illegalCommand ∧ decode 0x0001#16 = .fault .illegalCommand
      ∧ decode 0x2161#16 = .fault .illegalCommand ∧ decode 0x3001#16 = .fault .illegalCommand
      ∧ decode 0x5008#16 = .fault .badArgument ∧ decode 0x6010#16 = .fault .badArgument
      ∧ decode 0x7020#16 = .fault .badArgument ∧ decode 0x8010#16 = .fault .badArgument
      ∧ decode 0x9000#16 = .fault .illegalCommand ∧ decode 0xffff#16 = .fault .illegalCommand := by decide

theorem test_tableWord : decodeTableWord 16 0x6005 = some (.rddig 5) := by decide

/-! ## The compression transform (95 section 2.4) -/

/-- Round 0 of the empty-input block (R151). -/
theorem test_round_zero :
    roundStep [0x80#32] CV.initial 0 = ⟨0x10325476#32, 0xa5202774#32, 0xefcdab89#32, 0x98badcfe#32⟩ := by decide

theorem test_stage_functions :
    stageFn 0 0xf0f0f0f0#32 0xcccccccc#32 0xaaaaaaaa#32 = 0xcacacaca#32
      ∧ stageFn 16 0xf0f0f0f0#32 0xcccccccc#32 0xaaaaaaaa#32 = 0xe4e4e4e4#32
      ∧ stageFn 32 0xf0f0f0f0#32 0xcccccccc#32 0xaaaaaaaa#32 = 0x96969696#32
      ∧ stageFn 48 0xf0f0f0f0#32 0xcccccccc#32 0xaaaaaaaa#32 = 0x39393939#32 := by decide

theorem test_rotations :
    rotl32 0x80000000#32 7 = 0x00000040#32 ∧ rotl32 0x12345678#32 16 = 0x56781234#32
      ∧ rotl32 0xd76aa478#32 12 = 0xaa478d76#32 := by decide

/-- The new CV of the empty-input block. -/
theorem test_compress_empty :
    compress CV.initial ([0x80#8] ++ zeros 63) = ⟨0xd98c1dd4#32, 0x04b2008f#32, 0x980980e9#32, 0x7e42f8ec#32⟩ := by
  decide +kernel

/-! ## The commands -/

/-- INIT from FINALIZED with a fault recorded (95 section 2.2). -/
theorem test_init_restarts :
    nextState (execInit (abcDone.raiseFault .streamConsumed)) =
      some { abcDone with cv := CV.initial, len := 0, phase := .active, err := true, ecode := some .streamConsumed } := by
  decide

theorem test_nop_leaves_everything : nextState (execNop abcActive) = some abcActive := by decide

/-- The first byte of a stream (95 section 2.2). -/
theorem test_update_first :
    (nextState (execUpdate 0x61 { State.reset with phase := .active })).map (fun t => (t.buf, t.buflen, t.len, t.status)) =
      some ([(0, 0x61#8)], 1, 8, 0x0041#16) := by decide

/-- The 64th byte with the LEN wrap (95 section 2.2). -/
theorem test_update_wraps :
    (nextState (execUpdate 0x61 wrapState)).map (fun t => (t.len, t.buflen, t.cv, t.err)) =
      some (0, 0, ⟨0x89d4ff56#32, 0x125cd962#32, 0x69cade33#32, 0x0033e325#32⟩, false) := by decide +kernel

/-- The digest of "abc" (95 section 1.2). -/
theorem test_finalize_abc :
    (nextState (execFinalize abcActive)).map (fun t => (t.cv, t.len, t.buflen, t.phase)) =
      some (abcDone.cv, 24, 0, .finalized) := by decide +kernel

/-- Two tail blocks: the LEN wrap case of 95 section 2.3. -/
theorem test_finalize_two_blocks :
    (nextState (execFinalize wrapState)).map (fun t => toHex (digest t.cv)) =
      some ("b164fefa8d369b609bd62a921931604b".toList.map fun c => BitVec.ofNat 8 c.toNat) := by decide +kernel

theorem test_rdstat_active : replyOf (execRdstat abcActive) = some (.response 0x0043#16) := by decide
theorem test_rdstat_after_fault :
    replyOf (execRdstat (abcDone.raiseFault .streamConsumed)) = some (.response 0x8480#16) := by decide
theorem test_rdlen_low : replyOf (execRdlen 0 abcDone) = some (.response 0x0018#16) := by decide
theorem test_rdlen_second : replyOf (execRdlen 1 { abcDone with len := 0x200#64 }) = some (.response 0x0002#16) := by decide
theorem test_rddig_bytes :
    replyOf (execRddig 3 abcDone) = some (.response 0x0098#16) ∧ replyOf (execRddig 4 abcDone) = some (.response 0x003c#16)
      ∧ replyOf (execRddig 15 abcDone) = some (.response 0x0072#16) := by decide
theorem test_rddig_argument_before_phase :
    replyOf (execRddig 16 abcActive) = some (.fault .badArgument)
      ∧ replyOf (execRddig 0 abcActive) = some (.fault .digestNotReady) := by decide
theorem test_rdhex_characters :
    replyOf (execRdhex 0 abcDone) = some (.response 0x0039#16) ∧ replyOf (execRdhex 1 abcDone) = some (.response 0x0030#16)
      ∧ replyOf (execRdhex 30 abcDone) = some (.response 0x0037#16)
      ∧ replyOf (execRdhex 31 abcDone) = some (.response 0x0032#16) := by decide
theorem test_hexdig_boundary :
    replyOf (execHexdig 9 State.reset) = some (.response 0x0039#16)
      ∧ replyOf (execHexdig 10 State.reset) = some (.response 0x0061#16)
      ∧ replyOf (execHexdig 15 State.reset) = some (.response 0x0066#16) := by decide

/-- The first fault's code is kept (95 section 2.7). -/
theorem test_first_fault_kept :
    (nextState (performWord 0x2001#16 (State.reset.raiseFault .badArgument))).map (fun t => (t.err, t.ecode, t.reply)) =
      some (true, some .badArgument, .fault .noStream) := by decide

/-! ## The step, the fetch word and the assembler -/

theorem test_step_runs_fetch_word :
    (nextState (step (State.reset.withFetchWord 16 0x1000))).map (fun t => (t.phase, t.port)) = some (.active, []) := by decide

theorem test_assemble_update :
    assembleLine "UPDATE 0x61 ; 'a'".toList = some [.command 0x2061#16] := by decide +kernel
theorem test_assemble_literal : assembleLine "UPDATES 'a', 98".toList = some [.command 0x2061#16, .command 0x2062#16] := by
  decide +kernel
theorem test_assemble_rejects : assembleLine "RDLEN 8".toList = none ∧ assembleLine "NOP 1".toList = none := by
  decide +kernel
theorem test_assemble_reset : assembleLine ".RESET".toList = some [.reset] := by decide +kernel

/-! ## Witnesses: the hypotheses of each obligation can be met -/

theorem test_witness_DecodeReversesEncode : (Instr.rdhex 31).wellFormed = true ∧ (Instr.update 0xff).wellFormed = true := by
  decide
theorem test_witness_EncodeReversesDecode : decode 0x5007#16 = .command (.rdlen 7) := by decide
theorem test_witness_DecodeFollowsProcedure : decode 0x8010#16 = .fault .badArgument := by decide
theorem test_witness_OpcodeRowsSelectCommands :
    (OpcodeRow.selects ⟨0x5, 0x5000#16, 0xFF00#16, 7⟩ 0x5007#16 = true
      ∧ OpcodeRow.selects ⟨0x5, 0x5000#16, 0xFF00#16, 7⟩ 0x5008#16 = true
      ∧ (⟨0x5, 0x5000#16, 0xFF00#16, 7⟩ : OpcodeRow) ∈ opcodeRows)
      ∧ ∀ r ∈ opcodeRows, r.selects 0x9000#16 = false := by decide
theorem test_witness_IllegalWordsFault :
    9 ≤ wordOp 0x9000#16 ∧ (wordOp 0x8100#16 ≤ 8 ∧ wordRsv 0x8100#16 ≠ 0)
      ∧ (wordOp 0x4001#16 = 4 ∧ wordRsv 0x4001#16 = 0 ∧ wordArg 0x4001#16 ≠ 0) := by decide
theorem test_witness_OutOfRangeIndexFaults :
    (wordRsv 0x5008#16 = 0 ∧ wordOp 0x5008#16 = 5 ∧ 7 < wordArg 0x5008#16)
      ∧ (wordRsv 0x6010#16 = 0 ∧ wordOp 0x6010#16 = 6 ∧ 15 < wordArg 0x6010#16)
      ∧ (wordRsv 0x7020#16 = 0 ∧ wordOp 0x7020#16 = 7 ∧ 31 < wordArg 0x7020#16)
      ∧ (wordRsv 0x8010#16 = 0 ∧ wordOp 0x8010#16 = 8 ∧ 15 < wordArg 0x8010#16)
      ∧ (wordRsv 0x20ff#16 = 0 ∧ wordOp 0x20ff#16 = 2) := by decide
theorem test_witness_AssemblerEmitsLegalWords :
    assembleLine "RDHEX 31".toList = some [.command 0x701f#16] := by decide +kernel
theorem test_witness_StepPerformsNextInput :
    (State.reset.issue (.command 0x3000#16)).port = .command 0x3000#16 :: [] ∧ decode 0x3000#16 = .command .finalize
      ∧ (abcDone.issue (.command 0x9000#16)).port = .command 0x9000#16 :: [] ∧ decode 0x9000#16 = .fault .illegalCommand := by
  decide
theorem test_witness_IdlePortHoldsState : State.reset.port = [] := by decide
theorem test_witness_StepStopsOnlyOnRefusedInputs :
    step (State.reset.issue (.foreignCommand 0x1000#16)) = .refused .secondIssuer
      ∧ step (State.reset.issue (.resetDuring 0x3000#16)) = .refused .resetDuringCommand := ⟨rfl, rfl⟩
/-- Both cases of the record: the first fault, and a fault when one is recorded. -/
theorem test_witness_FaultWritesOnlyItsRecord :
    replyOf (perform (.command 0x2041#16) State.reset) = some (.fault .noStream)
      ∧ replyOf (perform (.command 0x9000#16) (abcDone.raiseFault .badArgument)) = some (.fault .illegalCommand) := by decide
/-- One word and state for each line of the priority, none of them met by an earlier line. -/
theorem test_witness_FaultPriorityIsFixed :
    replyOf (perform (.command 0x2161#16) abcDone) = some (.fault .illegalCommand)
      ∧ replyOf (perform (.command 0x6010#16) abcActive) = some (.fault .badArgument)
      ∧ replyOf (perform (.command 0x3000#16) State.reset) = some (.fault .noStream)
      ∧ replyOf (perform (.command 0x20ff#16) abcDone) = some (.fault .streamConsumed)
      ∧ replyOf (perform (.command 0x701f#16) abcActive) = some (.fault .digestNotReady)
      ∧ replyOf (perform (.command 0x701f#16) abcDone) = some (.response 0x0032#16) := by decide
theorem test_witness_FaultRecordIsSticky :
    (abcDone.raiseFault .streamConsumed).err = true
      ∧ replyOf (perform (.command 0x1000#16) (abcDone.raiseFault .streamConsumed)) = some .none
      ∧ replyOf (perform (.command 0x2041#16) State.reset) = some (.fault .noStream) := by decide
theorem test_witness_PhaseTransitionsAreListed :
    decode 0x2000#16 = .command (.update 0) ∧ State.reset.phase = .idle ∧ abcDone.phase = .finalized
      ∧ nextState (perform (.command 0x2000#16) State.reset) ≠ none ∧ nextState (perform .reset abcDone) ≠ none := by decide
theorem test_witness_NopChangesNothing : wordOp 0x0001#16 = 0 ∧ (0x0001#16).toNat % 4096 ≠ 0 := by decide
theorem test_witness_InitStartsStream :
    wordOp 0x1001#16 = 1 ∧ (0x1001#16).toNat % 4096 ≠ 0 ∧ nextState (exec .init abcDone) ≠ none := by decide
/-- The boundary values 62 and 63 of BUFLEN, the three phases, and the corner case. -/
theorem test_witness_UpdateAbsorbsByte :
    wrapState.phase = .active ∧ wrapState.bufferMatchesLength ∧ wrapState.len = 0xFFFFFFFFFFFFFFF8#64
      ∧ ({ wrapState with buflen := 62 } : State).phase = .active ∧ State.reset.phase ≠ .active ∧ abcDone.phase ≠ .active
      ∧ wordOp 0x2100#16 = 2 ∧ wordRsv 0x2100#16 ≠ 0 := by decide
/-- The boundary values 55 and 56 of BUFLEN. -/
theorem test_witness_FinalizePadsAndCompresses :
    ({ abcActive with buflen := 55 } : State).phase = .active ∧ ({ abcActive with buflen := 55 } : State).buflen.toNat ≤ 55
      ∧ ({ abcActive with buflen := 56 } : State).phase = .active ∧ ¬ ({ abcActive with buflen := 56 } : State).buflen.toNat ≤ 55
      ∧ State.reset.phase ≠ .active ∧ wordOp 0x3001#16 = 3 ∧ (0x3001#16).toNat % 4096 ≠ 0 := by decide
theorem test_witness_PaddingIsSmallest : 55 < 64 ∧ padZeros 55 = 0 ∧ padZeros 56 = 63 ∧ padZeros 63 = 56 := by decide
theorem test_witness_RdstatReturnsStatus :
    abcDone.bufferMatchesLength ∧ abcDone.phase = .finalized ∧ wordOp 0x4001#16 = 4 ∧ (0x4001#16).toNat % 4096 ≠ 0 := by
  decide
theorem test_witness_RdlenReturnsLengthByte :
    (7 : Byte).toNat ≤ 7 ∧ wordOp 0x5100#16 = 5 ∧ wordRsv 0x5100#16 ≠ 0 ∧ wordOp 0x5008#16 = 5 ∧ wordRsv 0x5008#16 = 0
      ∧ 7 < wordArg 0x5008#16 := by decide
theorem test_witness_RddigReturnsDigestByte :
    (15 : Byte).toNat ≤ 15 ∧ abcDone.phase = .finalized ∧ abcActive.phase ≠ .finalized ∧ wordOp 0x6100#16 = 6
      ∧ wordRsv 0x6100#16 ≠ 0 ∧ wordOp 0x6010#16 = 6 ∧ wordRsv 0x6010#16 = 0 ∧ 15 < wordArg 0x6010#16 := by decide
theorem test_witness_DigestIsChainingValue :
    abcDone.phase = .finalized ∧ nextState (perform (.command 0x6000#16) abcDone) ≠ none
      ∧ decode 0x6000#16 ≠ .command .init := by decide
theorem test_witness_RdhexReturnsHexCharacter :
    (31 : Byte).toNat ≤ 31 ∧ abcDone.phase = .finalized ∧ abcActive.phase ≠ .finalized ∧ wordOp 0x7100#16 = 7
      ∧ wordRsv 0x7100#16 ≠ 0 ∧ wordOp 0x7020#16 = 7 ∧ wordRsv 0x7020#16 = 0 ∧ 31 < wordArg 0x7020#16 := by decide
theorem test_witness_HexdigReturnsDigitCode :
    (15 : Byte).toNat ≤ 15 ∧ wordOp 0x8100#16 = 8 ∧ wordRsv 0x8100#16 ≠ 0 ∧ wordOp 0x8010#16 = 8 ∧ wordRsv 0x8010#16 = 0
      ∧ 15 < wordArg 0x8010#16 := by decide
theorem test_witness_ToHexWritesTwoDigitsPerByte : (digest abcDone.cv).length = 16 ∧ 15 < (digest abcDone.cv).length := by
  decide
theorem test_witness_ReadsHaveNoSideEffects :
    replyOf (exec (.rdhex 31) abcDone) = some (.response 0x0032#16) ∧ replyOf (exec .nop abcDone) = some .none := by decide
/-- Two states that differ outside the columns a command reads. -/
theorem test_witness_ResultsDependOnMatrixColumns :
    abcActive.len = abcDone.len ∧ abcDone.sameStream (abcDone.raiseFault .badArgument)
      ∧ nextState (exec (.rdlen 0) abcActive) ≠ none ∧ nextState (exec (.rdlen 0) abcDone) ≠ none
      ∧ nextState (exec .finalize abcDone) ≠ none ∧ nextState (exec .init (abcDone.raiseFault .badArgument)) ≠ none := by
  decide
theorem test_witness_RegistersChangeOnlyByTheirCommands :
    (nextState (perform (.command 0x2061#16) { State.reset with phase := .active })).map (fun t => (t.len, t.buflen)) =
      some (8, 1) := by decide
theorem test_witness_ChainingValueIsHidden :
    abcActive.phase ≠ .finalized ∧ nextState (perform (.command 0x6000#16) abcActive) ≠ none
      ∧ nextState (perform (.command 0x6000#16) { abcActive with cv := abcDone.cv }) ≠ none
      ∧ decode 0x6000#16 = .command (.rddig 0) ∧ decode 0x7000#16 = .command (.rdhex 0) := by decide
theorem test_witness_LengthWrapsSilently :
    wrapState.phase = .active ∧ (List.replicate (2 ^ 61) 0x00#8).length = 2 ^ 61 + ([] : List Byte).length :=
  ⟨rfl, List.length_replicate⟩
theorem test_witness_StageFunctionsAreBitwise : 63 < 64 ∧ 31 < 32 := by decide
theorem test_witness_RotationIsCircular : 1 ≤ 31 ∧ 31 ≤ 31 ∧ 31 < 32 := by decide
theorem test_witness_StepKeepsInvariant :
    abcActive.inv ∧ nextState (step (abcActive.issue (.command 0x2064#16))) ≠ none ∧ (abcActive.issue (.command 0x2064#16)).inv := by
  decide
/-- Two states that differ in the stale byte BUF[5]. -/
theorem test_witness_StaleBytesAreNeverRead :
    abcActive.agreeButStale { abcActive with buf := abcBuffer ++ [(5, 0x01#8)] } ∧ nextState (step abcActive) ≠ none := by
  decide
theorem test_witness_UpdatesRefineSource : abcActive.phase = .active := by decide
theorem test_witness_FinalizeRefinesSource : abcActive.phase = .active := by decide

end Sys2Proof.Tests
end

section
/-! Every command as its checks on the phase and its effect on the state (R13, R226), stated once. Two runs of a command from
states of the same phase then raise the same fault or both take the effect. -/

namespace Sys2Proof.Machine

/-- The checks of a command, in the order of R226. They read the phase alone. -/
def commandChecks (i : Instr) (p : Phase) : List (Option FaultCode) :=
  match i with
  | .nop => []
  | .init => []
  | .update _ => [streamFault p]
  | .finalize => [streamFault p]
  | .rdstat => []
  | .rdlen k => [argFault 7 k]
  | .rddig k => [argFault 15 k, digestFault p]
  | .rdhex j => [argFault 31 j, digestFault p]
  | .hexdig n => [argFault 15 n]

/-- What a command that passes its checks does. -/
def commandEffect (i : Instr) (s : State) : State :=
  match i with
  | .nop => s.silent
  | .init => s.startStream.silent
  | .update d => (s.absorb d).silent
  | .finalize => s.finish.silent
  | .rdstat => s.respond s.status
  | .rdlen k => s.respond (zext16 (byteOf s.len k.toNat))
  | .rddig k => s.respond (zext16 (digestByte s.cv k.toNat))
  | .rdhex j => s.respond (zext16 (hexChar s.cv j.toNat))
  | .hexdig n => s.respond (zext16 (hexdigit (lowNibble n)))

theorem exec_eq_guarded (i : Instr) (s : State) :
    exec i s = guarded (commandChecks i s.phase) s (commandEffect i s) := by
  cases i <;> rfl

/-- A command with a next state raised the first fault of its checks, or met none and took its effect. -/
theorem exec_outcome {i : Instr} {s t : State} (h : exec i s = .next t) :
    (∃ c, firstFault (commandChecks i s.phase) = some c ∧ t = s.raiseFault c)
    ∨ (firstFault (commandChecks i s.phase) = none ∧ t = commandEffect i s) :=
  guarded_cases (exec_eq_guarded i s ▸ h)

theorem exec_raise {i : Instr} {s : State} {c : FaultCode} (h : firstFault (commandChecks i s.phase) = some c) :
    exec i s = .next (s.raiseFault c) :=
  (exec_eq_guarded i s).trans (guarded_raise h)

theorem exec_pass {i : Instr} {s : State} (h : firstFault (commandChecks i s.phase) = none) :
    exec i s = .next (commandEffect i s) :=
  (exec_eq_guarded i s).trans (guarded_pass h)

@[simp] theorem commandEffect_err (i : Instr) (s : State) : (commandEffect i s).err = s.err := by
  cases i <;> simp [commandEffect]

@[simp] theorem commandEffect_ecode (i : Instr) (s : State) : (commandEffect i s).ecode = s.ecode := by
  cases i <;> simp [commandEffect]

theorem commandEffect_reply_ne_fault (i : Instr) (s : State) (c : FaultCode) : (commandEffect i s).reply ≠ .fault c := by
  cases i <;> simp [commandEffect]

/-- All that a command word can do, seen from the state alone: raise a fault, or take the effect of a command. -/
theorem performWord_outcome {w : PortWord} {s t : State} (h : performWord w s = .next t) :
    (∃ c, t = s.raiseFault c) ∨ ∃ i, t = commandEffect i s := by
  obtain ⟨c, -, rfl⟩ | ⟨i, -, hexec⟩ := performWord_cases h
  · exact .inl ⟨c, rfl⟩
  · obtain ⟨c, -, rfl⟩ | ⟨-, rfl⟩ := exec_outcome hexec
    · exact .inl ⟨c, rfl⟩
    · exact .inr ⟨i, rfl⟩

theorem firstFault_singleton (check : Option FaultCode) : firstFault [check] = check := by
  cases check <;> rfl

/-- UPDATE and FINALIZE pass their check in ACTIVE only. -/
theorem streamFault_eq_none {p : Phase} : streamFault p = none ↔ p = .active := by
  cases p <;> simp

/-- RDDIG and RDHEX meet DIGEST_NOT_READY in every phase but FINALIZED. -/
theorem digestFault_of_ne_finalized {p : Phase} (h : p ≠ .finalized) : digestFault p = some .digestNotReady := by
  cases p with
  | idle => rfl
  | active => rfl
  | finalized => exact absurd rfl h

theorem step_nil {s : State} (h : s.port = []) : step s = .next s := by
  rw [step, fetch_nil h, idleStep]

theorem step_cons {s : State} {e : HostInput} {rest : List HostInput} (h : s.port = e :: rest) :
    step s = perform e { s with port := rest } := by
  rw [step, fetch_cons h]

end Sys2Proof.Machine
end

section
/-! Agreement but for the stale bytes BUF[BUFLEN..63] (R26): each operation on the state keeps it. Only UPDATE and FINALIZE
read BUF at all, and both read the pending bytes BUF[0..BUFLEN) only. -/

namespace Sys2Proof.Machine

variable {s t : State}

theorem State.agreeButStale.refl (s : State) : s.agreeButStale s :=
  ⟨rfl, rfl, rfl, rfl, rfl, rfl, rfl, rfl, fun _ _ => rfl⟩

theorem State.agreeButStale.phase_eq (h : s.agreeButStale t) : s.phase = t.phase := by
  obtain ⟨_, _, _, hphase, _⟩ := h
  exact hphase

theorem State.agreeButStale.port_eq (h : s.agreeButStale t) : s.port = t.port := by
  obtain ⟨_, _, _, _, _, _, _, hport, _⟩ := h
  exact hport

/-- The two states hold the same pending bytes. -/
theorem State.agreeButStale.pending_eq (h : s.agreeButStale t) :
    s.buf.slice s.buflen.toNat = t.buf.slice s.buflen.toNat := by
  obtain ⟨_, _, _, _, _, _, _, _, hbuf⟩ := h
  refine Memory.slice_congr _ _ _ fun k hk => hbuf _ ?_
  exact (Nat.mod_le k (2 ^ 6)).trans_lt hk

theorem State.agreeButStale.tail_eq (h : s.agreeButStale t) : s.tail = t.tail := by
  have hpending := h.pending_eq
  obtain ⟨_, hlen, hbuflen, _⟩ := h
  rw [State.tail, State.tail, hpending, hlen, hbuflen]

theorem State.agreeButStale.status_eq (h : s.agreeButStale t) : s.status = t.status := by
  obtain ⟨_, _, hbuflen, hphase, herr, hecode, _⟩ := h
  rw [State.status, State.status, hbuflen, hphase, herr, hecode]

theorem State.agreeButStale.setPort (h : s.agreeButStale t) (rest : List HostInput) :
    State.agreeButStale { s with port := rest } { t with port := rest } := by
  obtain ⟨hcv, hlen, hbuflen, hphase, herr, hecode, hreply, _, hbuf⟩ := h
  exact ⟨hcv, hlen, hbuflen, hphase, herr, hecode, hreply, rfl, hbuf⟩

theorem State.agreeButStale.silent (h : s.agreeButStale t) : s.silent.agreeButStale t.silent := by
  obtain ⟨hcv, hlen, hbuflen, hphase, herr, hecode, _, hport, hbuf⟩ := h
  exact ⟨hcv, hlen, hbuflen, hphase, herr, hecode, rfl, hport, hbuf⟩

theorem State.agreeButStale.respond (h : s.agreeButStale t) (v : PortWord) :
    (s.respond v).agreeButStale (t.respond v) := by
  obtain ⟨hcv, hlen, hbuflen, hphase, herr, hecode, _, hport, hbuf⟩ := h
  exact ⟨hcv, hlen, hbuflen, hphase, herr, hecode, rfl, hport, hbuf⟩

theorem State.agreeButStale.raiseFault (h : s.agreeButStale t) (c : FaultCode) :
    (s.raiseFault c).agreeButStale (t.raiseFault c) := by
  obtain ⟨hcv, hlen, hbuflen, hphase, herr, hecode, _, hport, hbuf⟩ := h
  exact ⟨hcv, hlen, hbuflen, hphase, rfl, by simp [herr, hecode], rfl, hport, hbuf⟩

/-- INIT empties the buffer, so every byte of BUF becomes stale. -/
theorem State.agreeButStale.startStream (h : s.agreeButStale t) : s.startStream.agreeButStale t.startStream := by
  obtain ⟨_, _, _, _, herr, hecode, hreply, hport, _⟩ := h
  exact ⟨rfl, rfl, rfl, rfl, herr, hecode, hreply, hport, fun _ ha => absurd ha (Nat.not_lt_zero _)⟩

/-- FINALIZE reads the padded tail alone and empties the buffer. -/
theorem State.agreeButStale.finish (h : s.agreeButStale t) : s.finish.agreeButStale t.finish := by
  have htail := h.tail_eq
  obtain ⟨hcv, hlen, _, _, herr, hecode, hreply, hport, _⟩ := h
  exact ⟨by simp [hcv, htail], hlen, rfl, rfl, herr, hecode, hreply, hport, fun _ ha => absurd ha (Nat.not_lt_zero _)⟩

/-- The 64th byte compresses the pending bytes and the byte just written, so no stale byte. -/
theorem State.agreeButStale.absorb_cv_eq (h : s.agreeButStale t) (x : Byte) : (s.absorb x).cv = (t.absorb x).cv := by
  have hpending := h.pending_eq
  obtain ⟨hcv, _, hbuflen, _⟩ := h
  rw [State.absorb_cv, State.absorb_cv, ← hcv, ← hbuflen]
  split
  · next hfull => rw [← hfull, Memory.slice_write, Memory.slice_write, hpending]
  · rfl

/-- UPDATE overwrites BUF[BUFLEN], the one stale byte that becomes pending. -/
theorem State.agreeButStale.absorb (h : s.agreeButStale t) (x : Byte) : (s.absorb x).agreeButStale (t.absorb x) := by
  have hcv := h.absorb_cv_eq x
  obtain ⟨_, hlen, hbuflen, hphase, herr, hecode, hreply, hport, hbuf⟩ := h
  refine ⟨hcv, by simp [hlen], by simp [hbuflen], by simpa using hphase, by simpa using herr, by simpa using hecode,
    by simpa using hreply, by simpa using hport, fun a ha => ?_⟩
  rw [State.absorb_buf, State.absorb_buf, ← hbuflen, Memory.read_write, Memory.read_write]
  split
  · rfl
  · next hne =>
    rw [State.absorb_buflen] at ha
    exact hbuf a (by bv_omega)

theorem commandEffect_agreeButStale (i : Instr) (h : s.agreeButStale t) :
    (commandEffect i s).agreeButStale (commandEffect i t) := by
  have hstatus := h.status_eq
  have ⟨hcv, hlen, _⟩ := h
  cases i with
  | nop => exact h.silent
  | init => exact h.startStream.silent
  | update d => exact (h.absorb d).silent
  | finalize => exact h.finish.silent
  | rdstat => simpa only [commandEffect, hstatus] using h.respond _
  | rdlen k => simpa only [commandEffect, hlen] using h.respond _
  | rddig k => simpa only [commandEffect, hcv] using h.respond _
  | rdhex j => simpa only [commandEffect, hcv] using h.respond _
  | hexdig n => exact h.respond _

theorem exec_agreeButStale {i : Instr} {s' : State} (h : s.agreeButStale t) (hs : exec i s = .next s') :
    ∃ t', exec i t = .next t' ∧ s'.agreeButStale t' := by
  obtain ⟨c, hc, rfl⟩ | ⟨hc, rfl⟩ := exec_outcome hs <;> rw [h.phase_eq] at hc
  · exact ⟨_, exec_raise hc, h.raiseFault c⟩
  · exact ⟨_, exec_pass hc, commandEffect_agreeButStale i h⟩

theorem performWord_agreeButStale {w : PortWord} {s' : State} (h : s.agreeButStale t)
    (hs : performWord w s = .next s') : ∃ t', performWord w t = .next t' ∧ s'.agreeButStale t' := by
  obtain ⟨c, hd, rfl⟩ | ⟨i, hd, hexec⟩ := performWord_cases hs
  · exact ⟨_, performWord_fault t hd, h.raiseFault c⟩
  · rw [performWord_command t hd]
    exact exec_agreeButStale h hexec

/-- Settles O41: a step holds the state, performs a word or resets, and each keeps the agreement. -/
theorem staleBytesAreNeverRead : Obligations.StaleBytesAreNeverRead := by
  intro s t s' h hs
  obtain ⟨hport, rfl⟩ | ⟨w, rest, hport, hperform⟩ | ⟨rest, hport, rfl⟩ := step_cases hs <;> rw [h.port_eq] at hport
  · exact ⟨t, step_nil hport, h⟩
  · rw [step_cons hport]
    exact performWord_agreeButStale (h.setPort rest) hperform
  · exact ⟨_, step_cons hport, State.agreeButStale.refl _⟩

end Sys2Proof.Machine
end

section
/-! The fault record (R28, R29): what a command word does to ERR and ECODE. -/

namespace Sys2Proof.Machine

/-- The fault record is written by a fault only, and the first code stays (R28, R29, R225). -/
theorem performWord_faultRecord {w : PortWord} {s t : State} (h : performWord w s = .next t) :
    (s.err = true → t.err = true ∧ t.ecode = s.ecode)
    ∧ (∀ c, t.reply = .fault c → t.err = true ∧ (s.err = false → t.ecode = some c))
    ∧ (¬ t.faulted → t.err = s.err ∧ t.ecode = s.ecode) := by
  obtain ⟨c, rfl⟩ | ⟨i, rfl⟩ := performWord_outcome h
  · refine ⟨fun he => by simp [he], fun c' hc => ?_, fun hn => absurd ⟨c, rfl⟩ hn⟩
    obtain rfl : c = c' := by simpa using hc
    exact ⟨rfl, fun he => by simp [he]⟩
  · exact ⟨fun he => by simp [he], fun c hc => absurd hc (commandEffect_reply_ne_fault i s c), fun _ => by simp⟩

/-- Settles O16: a word's part is `performWord_faultRecord`, the view in STATUS is `State.status_fields`. -/
theorem faultRecordIsSticky : Obligations.FaultRecordIsSticky := by
  refine ⟨rfl, rfl, fun s t h => ?_, fun w s t h => performWord_faultRecord h, fun s => ?_⟩
  · obtain rfl : s.resetInput = t := by simpa using h
    exact ⟨rfl, rfl⟩
  · obtain ⟨-, -, hecode, -, herr⟩ := s.status_fields
    refine ⟨herr, ?_⟩
    rw [hecode]
    rcases s.ecode with _ | _ | _ | _ | _ | _ <;> rfl

end Sys2Proof.Machine
end

section
/-! The transitions of PHASE (R39). -/

namespace Sys2Proof.Machine

/-- PHASE after a command (R39). -/
theorem exec_phase {i : Instr} {s t : State} (h : exec i s = .next t) :
    t.phase = if i = .init then .active else if i = .finalize ∧ s.phase = .active then .finalized else s.phase := by
  obtain ⟨c, hc, rfl⟩ | ⟨hc, rfl⟩ := exec_outcome h
  · have hinit : i ≠ .init := by rintro rfl; simp [commandChecks] at hc
    have hfinal : ¬ (i = .finalize ∧ s.phase = .active) := by rintro ⟨rfl, hp⟩; simp [commandChecks, hp] at hc
    rw [if_neg hinit, if_neg hfinal, State.raiseFault_phase]
  · cases i with
    | finalize =>
      have hp : s.phase = .active := streamFault_eq_none.1 ((firstFault_singleton _).symm.trans hc)
      simp [commandEffect, hp]
    | _ => simp [commandEffect]

/-- UPDATE and FINALIZE raise the fault of their phase check. -/
theorem exec_streamFault {i : Instr} {s t : State} {c : FaultCode} (hi : (∃ d, i = .update d) ∨ i = .finalize)
    (hc : streamFault s.phase = some c) (h : exec i s = .next t) : t.reply = .fault c := by
  have hraise : firstFault (commandChecks i s.phase) = some c := by
    obtain ⟨d, rfl⟩ | rfl := hi <;> rw [commandChecks, hc, firstFault_some]
  obtain rfl := Host.Outcome.next.inj ((exec_raise hraise).symm.trans h)
  exact State.raiseFault_reply s c

/-- Settles O17: PHASE by `exec_phase`, the faults by `exec_streamFault`. -/
theorem phaseTransitionsAreListed : Obligations.PhaseTransitionsAreListed := by
  refine ⟨fun s t h => ?_, fun w s t h => ?_⟩
  · obtain rfl : s.resetInput = t := by simpa using h
    rfl
  · obtain ⟨c, hd, rfl⟩ | ⟨i, hd, hexec⟩ := performWord_cases h
    · simp [hd]
    · simp only [hd, Decoded.command.injEq]
      exact ⟨exec_phase hexec, fun hi =>
        ⟨fun hp => exec_streamFault hi (by rw [hp, streamFault_idle]) hexec,
          fun hp => exec_streamFault hi (by rw [hp, streamFault_finalized]) hexec⟩⟩

end Sys2Proof.Machine
end

section
/-! CV is hidden before FINALIZED (R38): the only commands that show it are RDDIG and RDHEX, and their phase check fails. -/

namespace Sys2Proof.Machine

/-- RDDIG and RDHEX raise before FINALIZED, whatever their index. -/
theorem firstFault_digestFault_ne_none {p : Phase} (hp : p ≠ .finalized) (a : Option FaultCode) :
    firstFault [a, digestFault p] ≠ none := by
  rw [digestFault_of_ne_finalized hp]
  cases a <;> simp

/-- With an index in range the fault is DIGEST_NOT_READY. -/
theorem digestRead_raises {i : Instr} {p : Phase} (hp : p ≠ .finalized)
    (hi : (∃ k, i = .rddig k) ∨ ∃ j, i = .rdhex j) (hwf : i.wellFormed = true) :
    firstFault (commandChecks i p) = some .digestNotReady := by
  obtain ⟨k, rfl⟩ | ⟨j, rfl⟩ := hi <;>
    simp [commandChecks, argFault_le (of_decide_eq_true hwf), digestFault_of_ne_finalized hp]

/-- UPDATE writes every register but CV without reading CV. -/
theorem State.absorb_setCv (s : State) (cv : CV) (x : Byte) :
    { s.absorb x with cv := (State.absorb { s with cv := cv } x).cv } = State.absorb { s with cv := cv } x := by
  unfold State.absorb
  dsimp only
  split <;> rfl

/-- A command that passes its checks before FINALIZED writes every register but CV without reading CV. -/
theorem commandEffect_setCv {i : Instr} {s : State} (cv : CV) (hp : s.phase ≠ .finalized)
    (hpass : firstFault (commandChecks i s.phase) = none) :
    { commandEffect i s with cv := (commandEffect i { s with cv := cv }).cv } = commandEffect i { s with cv := cv } := by
  cases i with
  | update d => exact congrArg State.silent (s.absorb_setCv cv d)
  | rddig k => exact absurd hpass (firstFault_digestFault_ne_none hp _)
  | rdhex j => exact absurd hpass (firstFault_digestFault_ne_none hp _)
  | _ => rfl

theorem exec_setCv {i : Instr} {s t t' : State} {cv : CV} (hp : s.phase ≠ .finalized) (h : exec i s = .next t)
    (h' : exec i { s with cv := cv } = .next t') : { t with cv := t'.cv } = t' := by
  obtain ⟨c, hc, rfl⟩ | ⟨hc, rfl⟩ := exec_outcome h
  · obtain rfl := Host.Outcome.next.inj ((exec_raise (s := { s with cv := cv }) hc).symm.trans h')
    rfl
  · obtain rfl := Host.Outcome.next.inj ((exec_pass (s := { s with cv := cv }) hc).symm.trans h')
    exact commandEffect_setCv cv hp hc

/-- Settles O33: a word that is no command raises the same fault in both runs; a command is `exec_setCv`, and
`digestRead_raises` where it reads the digest. -/
theorem chainingValueIsHidden : Obligations.ChainingValueIsHidden := by
  intro w s t t' cv hp h h'
  obtain ⟨c, hd, rfl⟩ | ⟨i, hd, hexec⟩ := performWord_cases h
  · obtain rfl := Host.Outcome.next.inj ((performWord_fault { s with cv := cv } hd).symm.trans h')
    exact ⟨rfl, by simp [hd]⟩
  · rw [perform_command, performWord_command _ hd] at h'
    refine ⟨exec_setCv hp hexec h', fun hread => ?_⟩
    obtain ⟨-, -, -, hwf⟩ := decode_command hd
    simp only [hd, Decoded.command.injEq] at hread
    obtain rfl := Host.Outcome.next.inj ((exec_raise (digestRead_raises hp hread hwf)).symm.trans hexec)
    exact State.raiseFault_reply s _

end Sys2Proof.Machine
end

section
/-! The decode procedure (R74) by the conditions of R222: `wordIllegal` words are ILLEGAL_COMMAND, `wordBadArgument` words with
RSV = 0 are BAD_ARGUMENT, and every other word is a command. -/

namespace Sys2Proof.Machine

variable {w : PortWord}

/-- R75: with a reserved opcode no row of the opcode map applies, whatever RSV and ARG hold. -/
theorem decode_of_reserved (hop : 9 ≤ wordOp w) : decode w = .fault .illegalCommand := by
  rw [decode_eq]
  simp (disch := omega) only [if_neg, ite_self]

/-- R77 for every RSV: a nonzero RSV gives the same fault. -/
theorem decode_of_arg_ne_zero (hop : wordOp w = 0 ∨ wordOp w = 1 ∨ wordOp w = 3 ∨ wordOp w = 4) (harg : wordArg w ≠ 0) :
    decode w = .fault .illegalCommand := by
  obtain hop | hop | hop | hop := hop <;> simp [decode_eq, hop, harg]

theorem decode_of_wordIllegal (h : wordIllegal w) : decode w = .fault .illegalCommand := by
  obtain hop | hrsv | ⟨hop, harg⟩ := h
  · exact decode_of_reserved hop
  · exact decode_of_rsv_ne hrsv
  · exact decode_of_arg_ne_zero hop harg

theorem decode_of_wordBadArgument (hrsv : wordRsv w = 0) (h : wordBadArgument w) : decode w = .fault .badArgument := by
  obtain ⟨hop, harg⟩ | ⟨hop, harg⟩ | ⟨hop, harg⟩ | ⟨hop, harg⟩ := h <;> simp [decode_eq, hrsv, hop, harg.not_ge]

/-- R78: UPDATE takes every ARG. -/
theorem decode_of_update (hrsv : wordRsv w = 0) (hop : wordOp w = 2) : decode w = .command (.update (argField w)) := by
  simp [decode_eq, hrsv, hop]

/-- The last line of R74: RSV and ARG are within what the opcode's row of R73 allows. -/
theorem exists_command_of_legal (hillegal : ¬ wordIllegal w) (hbad : ¬ wordBadArgument w) :
    ∃ i, decode w = .command i ∧ i.opcode = wordOp w ∧ i.arg.toNat = wordArg w := by
  simp only [not_or, not_and, not_le, not_lt, not_not] at hillegal hbad
  obtain ⟨hop, hrsv, hnoArg⟩ := hillegal
  obtain ⟨hlen, hdig, hhex, hnibble⟩ := hbad
  have ⟨i, hd⟩ : ∃ i, decode w = .command i := by
    rw [decode_eq, if_neg (not_not.2 hrsv)]
    generalize wordOp w = op at hop hnoArg hlen hdig hhex hnibble
    interval_cases op <;> simp [hnoArg, hlen, hdig, hhex, hnibble]
  obtain ⟨hcode, harg, -, -⟩ := decode_command hd
  exact ⟨i, hd, hcode, harg⟩

/-- R74, R226: a fault of decoding comes before every check on the state. -/
theorem perform_decode_fault {c : FaultCode} (s : State) (h : decode w = .fault c) :
    ∃ t, perform (.command w) s = .next t ∧ t.reply = .fault c :=
  ⟨s.raiseFault c, performWord_fault s h, s.raiseFault_reply c⟩

end Sys2Proof.Machine
end

section
/-! The statements on decoding faults (R74 to R78). -/

namespace Sys2Proof.Machine

/-- Settles O3: each line of the procedure is the lemma of its condition. -/
theorem decodeFollowsProcedure : Obligations.DecodeFollowsProcedure := by
  refine fun w => ⟨?_, fun s c h => perform_decode_fault s h⟩
  split_ifs with hop hrsv hnoArg hlen hdig hhex hnibble
  · exact decode_of_reserved hop
  · exact decode_of_rsv_ne hrsv
  · exact decode_of_arg_ne_zero hnoArg.1 hnoArg.2
  · exact decode_of_wordBadArgument (not_not.1 hrsv) (.inl hlen)
  · exact decode_of_wordBadArgument (not_not.1 hrsv) (.inr (.inl hdig))
  · exact decode_of_wordBadArgument (not_not.1 hrsv) (.inr (.inr (.inl hhex)))
  · exact decode_of_wordBadArgument (not_not.1 hrsv) (.inr (.inr (.inr hnibble)))
  · exact exists_command_of_legal (by tauto) (by tauto)

/-- Settles O5: each of the three conditions is a `wordIllegal` one. -/
theorem illegalWordsFault : Obligations.IllegalWordsFault := by
  intro w s h
  have hillegal : wordIllegal w := by
    obtain hop | ⟨-, hrsv⟩ | ⟨hop, -, harg⟩ := h
    · exact .inl hop
    · exact .inr (.inl hrsv)
    · exact .inr (.inr ⟨hop, harg⟩)
  have hdecode := decode_of_wordIllegal hillegal
  exact ⟨hdecode, perform_decode_fault s hdecode⟩

/-- Settles O6: the four ranges are `decode_of_wordBadArgument`, UPDATE is `decode_of_update`. -/
theorem outOfRangeIndexFaults : Obligations.OutOfRangeIndexFaults := by
  refine fun w s hrsv => ⟨fun hbad => ?_, fun hop => ⟨argField w, argField_toNat w, decode_of_update hrsv hop⟩⟩
  have hdecode := decode_of_wordBadArgument hrsv hbad
  exact ⟨hdecode, perform_decode_fault s hdecode⟩

end Sys2Proof.Machine
end

section
/-! What the commands of the hash engine share: the illegal words of a command that takes no operand, and the phase check of
UPDATE and FINALIZE (R222). -/

namespace Sys2Proof.Machine

/-- NOP, INIT, FINALIZE and RDSTAT are one word each: any other word of their opcode has a nonzero RSV or ARG (R76, R77). -/
theorem decode_of_low_ne_zero {w : PortWord} (hop : wordOp w = 0 ∨ wordOp w = 1 ∨ wordOp w = 3 ∨ wordOp w = 4)
    (hlow : w.toNat % 4096 ≠ 0) : decode w = .fault .illegalCommand := by
  have hfields := word_fields w
  by_cases hrsv : wordRsv w = 0
  · exact decode_of_arg_ne_zero hop (by omega)
  · exact decode_of_rsv_ne hrsv

theorem streamFault_of_ne_active {p : Phase} (hp : p ≠ .active) :
    streamFault p = some (if p = .idle then .noStream else .streamConsumed) := by
  cases p with
  | idle => rfl
  | active => exact absurd rfl hp
  | finalized => rfl

/-- A command under the stream check takes its effect in ACTIVE. -/
theorem exec_of_active {i : Instr} {s : State} (hi : commandChecks i s.phase = [streamFault s.phase])
    (hp : s.phase = .active) : exec i s = .next (commandEffect i s) :=
  exec_pass (by rw [hi, firstFault_singleton, streamFault_eq_none.2 hp])

/-- A command under the stream check faults outside ACTIVE and leaves the stream registers as they were (R224). -/
theorem exec_of_ne_active {i : Instr} {s : State} (hi : commandChecks i s.phase = [streamFault s.phase])
    (hp : s.phase ≠ .active) : ∃ t, exec i s = .next t ∧ s.sameStream t
      ∧ t.reply = .fault (if s.phase = .idle then .noStream else .streamConsumed) :=
  ⟨_, exec_raise (by rw [hi, firstFault_singleton, streamFault_of_ne_active hp]), ⟨rfl, rfl, rfl, rfl, rfl⟩, rfl⟩

end Sys2Proof.Machine
end

section
/-! UPDATE (R112, R115): its word, and what absorbing a byte does to BUFLEN, CV and LEN. -/

namespace Sys2Proof.Machine

theorem encode_update (d : Byte) : encode (.update d) = 0x2000#16 ||| d.setWidth 16 := by
  apply BitVec.eq_of_toNat_eq
  have hd : d.toNat % 2 ^ 16 = d.toNat := Nat.mod_eq_of_lt (by omega)
  rw [encode, BitVec.toNat_append, BitVec.toNat_or, BitVec.toNat_setWidth, hd]
  rfl

theorem decode_encode_update (d : Byte) : decode (encode (.update d)) = .command (.update d) := by
  obtain ⟨hop, hrsv, -⟩ := encode_fields (.update d)
  obtain ⟨-, -, harg⟩ := Laws.Layout.update d
  rw [decode_of_update hrsv hop, harg, Instr.arg]

theorem exec_update_of_active {s : State} (d : Byte) (hp : s.phase = .active) :
    exec (.update d) s = .next (s.absorb d).silent :=
  exec_of_active rfl hp

/-- R115: LEN is kept mod 2^64. -/
theorem State.absorb_len_toNat (s : State) (d : Byte) : (s.absorb d).len.toNat = (s.len.toNat + 8) % 2 ^ 64 := by
  rw [State.absorb_len, BitVec.toNat_add]
  rfl

/-- The 64th byte of a block compresses the 63 pending bytes and itself. -/
theorem State.absorb_last {s : State} (d : Byte) (h : s.buflen.toNat = 63) :
    (s.absorb d).cv = compress s.cv (s.buf.slice 63 ++ [d]) ∧ (s.absorb d).buflen = 0 := by
  have hblock := s.buf.slice_write s.buflen d
  rw [h] at hblock
  exact ⟨by rw [State.absorb_cv, h, if_pos rfl, hblock], by rw [State.absorb_buflen]; bv_omega⟩

/-- A byte before the 64th is only appended. -/
theorem State.absorb_not_last {s : State} (d : Byte) (h : s.buflen.toNat ≠ 63) :
    (s.absorb d).cv = s.cv ∧ (s.absorb d).buflen.toNat = s.buflen.toNat + 1 :=
  ⟨by rw [State.absorb_cv, if_neg (by omega)], by rw [State.absorb_buflen]; bv_omega⟩

/-- R112's corner case: the LEN before the wrap is that of a buffer with 63 bytes. -/
theorem State.buflen_of_len_max {s : State} (hp : s.phase = .active) (hmatch : s.bufferMatchesLength)
    (hlen : s.len = 0xFFFFFFFFFFFFFFF8#64) : s.buflen = 63 := by
  have hbuflen := hmatch.1 (by simp [hp])
  rw [hbuflen, hlen]
  rfl

/-- Settles O20: in ACTIVE the effect is `State.absorb`, which compresses on the 64th byte (`State.absorb_last`); outside it the
command faults (`exec_of_ne_active`). -/
theorem updateAbsorbsByte : Obligations.UpdateAbsorbsByte := by
  refine ⟨fun d => ⟨encode_update d, encode_update d ▸ decode_encode_update d⟩, fun d s hp => ?_,
    fun d s hp => exec_of_ne_active rfl hp, fun d s hp hmatch hlen => ?_, fun w _ hrsv => decode_of_rsv_ne hrsv⟩
  · refine ⟨_, exec_update_of_active d hp, by simp, fun a ha => by simp [Memory.read_write_other _ _ _ _ ha],
      s.absorb_len_toNat d, ?_, by simp [hp], by simp, by simp, rfl, by simp⟩
    split
    · next hlast => exact State.absorb_last d hlast
    · next hlast => exact State.absorb_not_last d hlast
  · have hbuflen := State.buflen_of_len_max hp hmatch hlen
    obtain ⟨hcv, hempty⟩ := State.absorb_last d (congrArg BitVec.toNat hbuflen)
    exact ⟨hbuflen, _, exec_update_of_active d hp, by simp [hlen], hempty, hcv, by simp [State.faulted]⟩

/-- The bit count of a stream is that of its number of bytes (R101, R105). -/
theorem md5Update_init_totalLength (bytes : List Byte) :
    (md5Update md5Init bytes).totalLength = BitVec.ofNat 64 (8 * bytes.length) := by
  simp [md5Update, md5Init, BitVec.ofNat_mul]

/-- Settles O34: `State.absorb_len_toNat` for one byte; 2^61 bytes are 2^64 bits, which is 0 in LEN. -/
theorem lengthWrapsSilently : Obligations.LengthWrapsSilently := by
  refine ⟨fun d s hp => ?_, fun bytes bytes' hlength => ?_⟩
  · exact ⟨_, exec_update_of_active d hp, s.absorb_len_toNat d, by simp [State.faulted], by simp, by simp⟩
  · congr 1
    rw [md5Update_init_totalLength, md5Update_init_totalLength, hlength]
    apply BitVec.eq_of_toNat_eq
    simp only [BitVec.toNat_ofNat]
    omega

end Sys2Proof.Machine
end

section
/-! The padding (R104) and FINALIZE (R113): the tail is one block up to BUFLEN = 55 and two blocks above. -/

namespace Sys2Proof.Machine

theorem padZeros_of_le {n : Nat} (h : n ≤ 55) : padZeros n = 55 - n := by
  simp only [padZeros]; omega

theorem padZeros_of_gt {n : Nat} (h : 55 < n) (hn : n < 64) : padZeros n = 119 - n := by
  simp only [padZeros]; omega

@[simp] theorem length_zeros (n : Nat) : (zeros n).length = n := List.length_replicate

@[simp] theorem length_le64bytes (v : BitCount) : (le64bytes v).length = 8 := rfl

theorem zeros_add (m n : Nat) : zeros (m + n) = zeros m ++ zeros n := List.replicate_add _ _ _

theorem State.length_tail (s : State) : s.tail.length = s.buflen.toNat + padZeros s.buflen.toNat + 9 := by
  simp only [State.tail, List.length_append, Memory.length_slice, length_zeros, length_le64bytes, List.length_singleton]
  omega

/-- Settles O22: both the congruence and the length follow from the two closed forms of z. -/
theorem paddingIsSmallest : Obligations.PaddingIsSmallest := by
  refine ⟨fun n hn => ?_, fun s => ⟨rfl, ?_⟩⟩
  · split
    · next h => rw [padZeros_of_le h]; exact ⟨by omega, fun z hz => by omega, rfl⟩
    · next h => rw [padZeros_of_gt (by omega) hn]; exact ⟨by omega, fun z hz => by omega, rfl⟩
  · have hlt := s.buflen.isLt
    rw [State.length_tail]
    split
    · next h => rw [padZeros_of_le h]; omega
    · next h => rw [padZeros_of_gt (by omega) hlt]; omega

/-- R113 with BUFLEN at most 55. -/
theorem State.finish_cv_one {s : State} (h : s.buflen.toNat ≤ 55) :
    s.finish.cv = compress s.cv
      (s.buf.slice s.buflen.toNat ++ [0x80#8] ++ zeros (55 - s.buflen.toNat) ++ le64bytes s.len) := by
  have hlength : s.tail.length = 64 := by rw [State.length_tail, padZeros_of_le h]; omega
  rw [State.finish_cv, compressBlocks_one _ _ hlength, State.tail, padZeros_of_le h]

/-- R113 with BUFLEN 56 or more: 63 - BUFLEN of the zeros fill the first block and 56 begin the second. -/
theorem State.finish_cv_two {s : State} (h : 55 < s.buflen.toNat) :
    s.finish.cv = compress (compress s.cv (s.buf.slice s.buflen.toNat ++ [0x80#8] ++ zeros (63 - s.buflen.toNat)))
      (zeros 56 ++ le64bytes s.len) := by
  have hlt := s.buflen.isLt
  have hzeros : padZeros s.buflen.toNat = (63 - s.buflen.toNat) + 56 := by rw [padZeros_of_gt h hlt]; omega
  have hblocks : s.tail = (s.buf.slice s.buflen.toNat ++ [0x80#8] ++ zeros (63 - s.buflen.toNat))
      ++ (zeros 56 ++ le64bytes s.len) := by
    rw [State.tail, hzeros, zeros_add]
    simp only [List.append_assoc]
  rw [State.finish_cv, hblocks, compressBlocks_two _ _ _ (by simp; omega) (by simp)]

/-- Settles O21: in ACTIVE the effect is `State.finish`, on one block or two; outside it the command faults
(`exec_of_ne_active`). -/
theorem finalizePadsAndCompresses : Obligations.FinalizePadsAndCompresses := by
  refine ⟨rfl, by decide, fun s hp => ?_, fun s hp => exec_of_ne_active rfl hp,
    fun w hop hlow => decode_of_low_ne_zero (by omega) hlow⟩
  refine ⟨_, exec_of_active rfl hp, ?_, rfl, rfl, rfl, rfl, rfl, rfl, rfl, rfl⟩
  split
  · next h => exact State.finish_cv_one h
  · next h => exact State.finish_cv_two (by omega)

end Sys2Proof.Machine
end

section
/-! NOP (R110) and INIT (R111), which have no check. -/

namespace Sys2Proof.Machine

/-- Settles O18: by `execNop_eq` and `decode_of_low_ne_zero`. -/
theorem nopChangesNothing : Obligations.NopChangesNothing :=
  ⟨rfl, by decide, execNop_eq, fun _ hop hlow => decode_of_low_ne_zero (.inl hop) hlow⟩

/-- What INIT loads does not depend on what it overwrites. -/
theorem State.startStream_silent_idem (s : State) : s.startStream.silent.startStream.silent = s.startStream.silent := rfl

/-- Settles O19: by `execInit_eq`, `State.startStream_silent_idem` and `decode_of_low_ne_zero`. -/
theorem initStartsStream : Obligations.InitStartsStream := by
  refine ⟨rfl, by decide, execInit_eq, fun s t h => ?_, fun w hop hlow => decode_of_low_ne_zero (.inr (.inl hop)) hlow⟩
  obtain rfl : s.startStream.silent = t := Host.Outcome.next.inj ((execInit_eq s).symm.trans h)
  exact (execInit_eq _).trans (congrArg _ s.startStream_silent_idem)

end Sys2Proof.Machine
end

section
/-! The words of the commands (R70 to R73): an operand joined to its opcode byte, and decoding an encoded command. -/

namespace Sys2Proof.Machine

/-- The opcode byte and the operand fill disjoint bits, so joining them is an OR. -/
theorem append_eq_or_setWidth (c d : Byte) : c ++ d = (c ++ 0#8) ||| d.setWidth 16 := by
  ext j hj
  simp only [BitVec.getElem_append, BitVec.getElem_or, BitVec.getElem_setWidth]
  split
  · next h => simp [h]
  · next h => simp [BitVec.getLsbD_of_ge d j (by omega)]

theorem decode_encode {i : Instr} (h : i.wellFormed = true) : decode (encode i) = .command i := by
  obtain ⟨hop, hrsv, harg⟩ := encode_fields i
  have hfield : argField (encode i) = i.arg := BitVec.eq_of_toNat_eq ((argField_toNat _).trans harg)
  rw [decode_eq, hop, hrsv, harg, hfield]
  cases i <;> simp_all [Instr.opcode, Instr.arg, Instr.wellFormed]

/-- A well-formed command and the word it encodes to. -/
theorem word_of_command {i : Instr} {w : PortWord} (h : i.wellFormed = true) (he : encode i = w) :
    encode i = w ∧ decode w = .command i :=
  ⟨he, he ▸ decode_encode h⟩

end Sys2Proof.Machine
end

section
/-! The bytes of a value as numbers (R9), the response word of a byte (R81) and the digest view of CV (R183). -/

namespace Sys2Proof.Machine

theorem byteOf_eq_ofNat {n : Nat} (v : BitVec n) (k : Nat) :
    byteOf v k = BitVec.ofNat 8 (v.toNat / 2 ^ (8 * k) % 256) := by
  apply BitVec.eq_of_toNat_eq
  simp [byteOf, BitVec.extractLsb'_toNat, Nat.shiftRight_eq_div_pow]

theorem zext16_eq_ofNat (b : Byte) : zext16 b = BitVec.ofNat 16 b.toNat := (BitVec.ofNat_toNat 16 b).symm

theorem zext16_byteOf {n : Nat} (v : BitVec n) (k : Nat) :
    zext16 (byteOf v k) = BitVec.ofNat 16 (v.toNat / 2 ^ (8 * k) % 256) := by
  rw [zext16_eq_ofNat, byteOf_eq_ofNat, BitVec.toNat_ofNat, Nat.mod_mod_of_dvd _ (dvd_refl 256)]

@[simp] theorem length_digest (cv : CV) : (digest cv).length = 16 := rfl

/-- R183: the digest is the four words of CV in order, each least significant byte first. -/
theorem digest_getElem? (cv : CV) {w k : Nat} (hw : w < 4) (hk : k < 4) :
    (digest cv)[4 * w + k]? = some (byteOf ([cv.a, cv.b, cv.c, cv.d].getD w 0) k) := by
  interval_cases w <;> interval_cases k <;> rfl

theorem digest_getElem?_eq_digestByte (cv : CV) {k : Nat} (hk : k < 16) :
    (digest cv)[k]? = some (digestByte cv k) := by
  have hlt : k < (digest cv).length := hk
  rw [digestByte, List.getD_eq_getElem _ _ hlt, List.getElem?_eq_getElem hlt]

end Sys2Proof.Machine
end

section
/-! The readout commands RDSTAT, RDLEN and RDDIG (R180 to R182). -/

namespace Sys2Proof.Machine

/-- Settles O23: the response is `State.status`, whose fields are `State.status_fields`. -/
theorem rdstatReturnsStatus : Obligations.RdstatReturnsStatus := by
  refine ⟨rfl, by decide, fun s => ⟨s.status, execRdstat_eq s, ?_⟩, rfl,
    fun w hop hlow => decode_of_low_ne_zero (by omega) hlow⟩
  obtain ⟨hbuflen, hphase, hecode, hreserved, herr⟩ := s.status_fields
  refine ⟨hbuflen, ?_, ?_, hreserved, herr, fun hmatch hp => hbuflen.trans (hmatch.2 hp)⟩
  · rw [hphase]
    cases s.phase <;> rfl
  · rw [hecode]
    rcases s.ecode with _ | _ | _ | _ | _ | _ <;> rfl

/-- Settles O24: the response is `zext16_byteOf` of LEN, in every phase. -/
theorem rdlenReturnsLengthByte : Obligations.RdlenReturnsLengthByte := by
  refine ⟨fun k hk => word_of_command (decide_eq_true hk) (append_eq_or_setWidth 0x50#8 k), fun k s hk => ?_,
    fun w hop => ⟨decode_of_rsv_ne, fun hrsv harg => decode_of_wordBadArgument hrsv (.inl ⟨hop, harg⟩)⟩⟩
  rw [exec, execRdlen_eq, if_pos hk, zext16_byteOf, State.respond]

/-- RDDIG and RDHEX outside FINALIZED, with an index in range (R224). -/
theorem exec_digestRead_of_ne_finalized {i : Instr} {s : State} (hp : s.phase ≠ .finalized)
    (hi : (∃ k, i = .rddig k) ∨ ∃ j, i = .rdhex j) (hwf : i.wellFormed = true) :
    ∃ t, exec i s = .next t ∧ s.sameStream t ∧ t.reply = .fault .digestNotReady :=
  ⟨_, exec_raise (digestRead_raises hp hi hwf), ⟨rfl, rfl, rfl, rfl, rfl⟩, rfl⟩

/-- Settles O25: in FINALIZED the response is the digest byte; before it the command faults
(`exec_digestRead_of_ne_finalized`). -/
theorem rddigReturnsDigestByte : Obligations.RddigReturnsDigestByte := by
  refine ⟨fun k hk => word_of_command (decide_eq_true hk) (append_eq_or_setWidth 0x60#8 k), fun k s hk hp => ?_,
    fun k s hk hp => exec_digestRead_of_ne_finalized hp (.inl ⟨k, rfl⟩) (decide_eq_true hk),
    fun w hop => ⟨decode_of_rsv_ne, fun hrsv harg => decode_of_wordBadArgument hrsv (.inr (.inl ⟨hop, harg⟩))⟩⟩
  refine ⟨digestByte s.cv k.toNat, digest_getElem?_eq_digestByte s.cv (by omega), ?_⟩
  rw [exec, execRddig_eq, if_pos hk, if_pos hp, zext16_eq_ofNat, State.respond]

end Sys2Proof.Machine
end

section
/-! The digest in FINALIZED (R183): UPDATE and FINALIZE fault there, and of the other commands INIT alone writes CV. -/

namespace Sys2Proof.Machine

theorem exec_cv_of_finalized {i : Instr} {s t : State} (hp : s.phase = .finalized) (hi : i ≠ .init)
    (h : exec i s = .next t) : t.cv = s.cv := by
  obtain ⟨c, -, rfl⟩ | ⟨hpass, rfl⟩ := exec_outcome h
  · exact s.raiseFault_cv c
  · cases i with
    | init => exact absurd rfl hi
    | update d => simp [commandChecks, hp] at hpass
    | finalize => simp [commandChecks, hp] at hpass
    | _ => rfl

theorem exec_phase_of_finalized {i : Instr} {s t : State} (hp : s.phase = .finalized) (hi : i ≠ .init)
    (h : exec i s = .next t) : t.phase = .finalized := by
  simp [exec_phase h, hi, hp]

/-- Settles O26: the bytes are `digest_getElem?`, and a command in FINALIZED keeps CV (`exec_cv_of_finalized`). -/
theorem digestIsChainingValue : Obligations.DigestIsChainingValue := by
  refine ⟨fun cv w k hw hk => ?_, length_digest, fun w s t hp h hinit => ?_⟩
  · rw [digest_getElem? cv hw hk, byteOf_eq_ofNat]
  · obtain ⟨c, -, rfl⟩ | ⟨i, hd, hexec⟩ := performWord_cases h
    · exact ⟨rfl, hp⟩
    · have hi : i ≠ .init := fun e => hinit (e ▸ hd)
      exact ⟨congrArg digest (exec_cv_of_finalized hp hi hexec), exec_phase_of_finalized hp hi hexec⟩

end Sys2Proof.Machine
end

section
/-! The hex digits (R200) as numbers, and `to_hex` (R201) character by character. -/

namespace Sys2Proof.Machine

theorem highNibble_toNat (b : Byte) : (highNibble b).toNat = b.toNat / 16 := by
  have hb := b.isLt
  rw [highNibble, BitVec.extractLsb'_toNat, Nat.shiftRight_eq_div_pow]
  omega

theorem lowNibble_toNat (b : Byte) : (lowNibble b).toNat = b.toNat % 16 := by
  rw [lowNibble, BitVec.extractLsb'_toNat, Nat.shiftRight_zero]

theorem highNibble_eq_ofNat (b : Byte) : highNibble b = BitVec.ofNat 4 (b.toNat / 16) := by
  rw [← highNibble_toNat, BitVec.ofNat_toNat, BitVec.setWidth_eq]

theorem lowNibble_eq_ofNat (b : Byte) : lowNibble b = BitVec.ofNat 4 (b.toNat % 16) := by
  rw [← lowNibble_toNat, BitVec.ofNat_toNat, BitVec.setWidth_eq]

/-- R200: neither addition leaves the byte. -/
theorem hexdigit_toNat (n : BitVec 4) :
    (hexdigit n).toNat = if n.toNat ≤ 9 then 0x30 + n.toNat else 0x61 + (n.toNat - 10) := by
  have hn := n.isLt
  unfold hexdigit
  split <;> rw [BitVec.toNat_ofNat] <;> omega

/-- The digits are the codes of 0-9 and a-f. -/
theorem hexdigit_range (n : BitVec 4) :
    (0x30 ≤ (hexdigit n).toNat ∧ (hexdigit n).toNat ≤ 0x39) ∨ (0x61 ≤ (hexdigit n).toNat ∧ (hexdigit n).toNat ≤ 0x66) := by
  have hn := n.isLt
  rw [hexdigit_toNat]
  split
  · next h => exact .inl (by omega)
  · next h => exact .inr (by omega)

theorem toHex_cons (b : Byte) (d : List Byte) :
    toHex (b :: d) = hexdigit (highNibble b) :: hexdigit (lowNibble b) :: toHex d := rfl

theorem length_toHex (d : List Byte) : (toHex d).length = 2 * d.length := by
  induction d with
  | nil => rfl
  | cons b d ih => rw [toHex_cons, List.length_cons, List.length_cons, List.length_cons, ih]; rfl

theorem exists_hexdigit_of_mem_toHex {c : Byte} {d : List Byte} (h : c ∈ toHex d) : ∃ n, c = hexdigit n := by
  obtain ⟨b, -, hc⟩ := List.mem_flatMap.1 h
  obtain rfl | rfl := List.mem_pair.1 hc
  · exact ⟨_, rfl⟩
  · exact ⟨_, rfl⟩

/-- The two characters of byte `k`, high nibble first; none past the end. -/
theorem toHex_getElem?_pair (d : List Byte) (k : Nat) :
    (toHex d)[2 * k]? = d[k]?.map (fun b => hexdigit (highNibble b))
      ∧ (toHex d)[2 * k + 1]? = d[k]?.map (fun b => hexdigit (lowNibble b)) := by
  induction d generalizing k with
  | nil => exact ⟨rfl, rfl⟩
  | cons b d ih =>
    cases k with
    | zero => exact ⟨rfl, rfl⟩
    | succ k => exact ih k

/-- Settles O29: the characters are `toHex_getElem?_pair`, their codes `hexdigit_range`. -/
theorem toHexWritesTwoDigitsPerByte : Obligations.ToHexWritesTwoDigitsPerByte := by
  refine fun d => ⟨fun k hk => ?_, fun hd => by rw [length_toHex, hd], fun c hc => ?_⟩
  · obtain ⟨hhigh, hlow⟩ := toHex_getElem?_pair d k
    rw [hhigh, hlow, List.getElem?_eq_getElem hk, ← highNibble_eq_ofNat, ← lowNibble_eq_ofNat]
    exact ⟨rfl, rfl⟩
  · obtain ⟨n, rfl⟩ := exists_hexdigit_of_mem_toHex hc
    exact hexdigit_range n

end Sys2Proof.Machine
end

section
/-! The hex digit formatter's commands RDHEX (R203) and HEXDIG (R202). -/

namespace Sys2Proof.Machine

theorem hexChar_even (cv : CV) (k : Nat) : hexChar cv (2 * k) = hexdigit (highNibble (digestByte cv k)) := by
  rw [hexChar, if_pos (Nat.mul_mod_right 2 k), Nat.mul_div_cancel_left k two_pos]

theorem hexChar_odd (cv : CV) (k : Nat) : hexChar cv (2 * k + 1) = hexdigit (lowNibble (digestByte cv k)) := by
  rw [hexChar, if_neg (by omega), show (2 * k + 1) / 2 = k by omega]

/-- R203's pseudocode gives the characters of `to_hex` of the digest in order. -/
theorem toHex_digest_getElem? (cv : CV) {j : Nat} (hj : j < 32) : (toHex (digest cv))[j]? = some (hexChar cv j) := by
  obtain ⟨k, hk⟩ := Nat.even_or_odd' j
  obtain ⟨hhigh, hlow⟩ := toHex_getElem?_pair (digest cv) k
  rw [digest_getElem?_eq_digestByte cv (by omega)] at hhigh hlow
  obtain rfl | rfl := hk
  · rw [hhigh, hexChar_even, Option.map_some]
  · rw [hlow, hexChar_odd, Option.map_some]

/-- Settles O27: in FINALIZED the response is the character of `toHex_digest_getElem?`; before it the command faults
(`exec_digestRead_of_ne_finalized`). -/
theorem rdhexReturnsHexCharacter : Obligations.RdhexReturnsHexCharacter := by
  refine ⟨fun j hj => word_of_command (decide_eq_true hj) (append_eq_or_setWidth 0x70#8 j), fun j s hj hp => ?_,
    fun j s hj hp => exec_digestRead_of_ne_finalized hp (.inr ⟨j, rfl⟩) (decide_eq_true hj),
    fun w hop => ⟨decode_of_rsv_ne, fun hrsv harg => decode_of_wordBadArgument hrsv (.inr (.inr (.inl ⟨hop, harg⟩)))⟩⟩
  refine ⟨hexChar s.cv j.toNat, toHex_digest_getElem? s.cv (by omega), ?_⟩
  rw [exec, execRdhex_eq, if_pos hj, if_pos hp, zext16_eq_ofNat, State.respond]

/-- A nibble operand in range is its own low nibble. -/
theorem zext16_hexdigit_lowNibble {n : Byte} (hn : n.toNat ≤ 15) :
    zext16 (hexdigit (lowNibble n)) =
      BitVec.ofNat 16 (if n.toNat ≤ 9 then 0x30 + n.toNat else 0x61 + (n.toNat - 10)) := by
  rw [zext16_eq_ofNat, hexdigit_toNat, lowNibble_toNat, Nat.mod_eq_of_lt (by omega)]

/-- Settles O28: the response is `zext16_hexdigit_lowNibble`, in every state. -/
theorem hexdigReturnsDigitCode : Obligations.HexdigReturnsDigitCode := by
  refine ⟨fun n hn => word_of_command (decide_eq_true hn) (append_eq_or_setWidth 0x80#8 n), fun n s hn => ?_,
    fun w hop => ⟨decode_of_rsv_ne, fun hrsv harg => decode_of_wordBadArgument hrsv (.inr (.inr (.inr ⟨hop, harg⟩)))⟩⟩
  rw [exec, execHexdig_eq, if_pos hn, zext16_hexdigit_lowNibble hn, State.respond]

end Sys2Proof.Machine
end

section
/-! Fault outcomes of a command word (R222 to R226): the state after one, and which word raises which fault. -/

namespace Sys2Proof.Machine

variable {w : PortWord} {s t : State} {c : FaultCode}

theorem State.sameStream_raiseFault (s : State) (c : FaultCode) : s.sameStream (s.raiseFault c) :=
  ⟨rfl, rfl, rfl, rfl, rfl⟩

/-- A fault outcome is the raise of its code, for no command's effect answers with a fault (R224). -/
theorem eq_raiseFault_of_reply (h : performWord w s = .next t) (hc : t.reply = .fault c) : t = s.raiseFault c := by
  obtain ⟨c', rfl⟩ | ⟨i, rfl⟩ := performWord_outcome h
  · obtain rfl : c' = c := Reply.fault.inj hc
    rfl
  · exact absurd hc (commandEffect_reply_ne_fault i s c)

/-- Settles O14: the state after a fault outcome is `State.raiseFault` (`eq_raiseFault_of_reply`). -/
theorem faultWritesOnlyItsRecord : Obligations.FaultWritesOnlyItsRecord := by
  intro w s t c h hc
  obtain rfl := eq_raiseFault_of_reply h hc
  refine ⟨s.sameStream_raiseFault c, rfl, rfl, ?_⟩
  cases herr : s.err <;> simp [herr]

/-- The fault of a command with its operand in range, by its opcode and the phase (the last three lines of R226). -/
def phaseFault (op : Nat) (p : Phase) : Option FaultCode :=
  if op = 2 ∨ op = 3 then streamFault p else if op = 6 ∨ op = 7 then digestFault p else none

theorem phaseFault_eq_none {op : Nat} {p : Phase} (hstream : op = 2 ∨ op = 3 → p = .active)
    (hdigest : op = 6 ∨ op = 7 → p = .finalized) : phaseFault op p = none := by
  rw [phaseFault]
  split_ifs with hop hop'
  · rw [hstream hop, streamFault_active]
  · rw [hdigest hop', digestFault_finalized]
  · rfl

/-- With the operand in range only the phase check is left. -/
theorem firstFault_commandChecks {i : Instr} (p : Phase) (hwf : i.wellFormed = true) :
    firstFault (commandChecks i p) = phaseFault i.opcode p := by
  cases i with
  | nop => rfl
  | init => rfl
  | update d => exact firstFault_singleton _
  | finalize => exact firstFault_singleton _
  | rdstat => rfl
  | rdlen k => exact congrArg (firstFault [·]) (argFault_le (of_decide_eq_true hwf))
  | rddig k => rw [commandChecks, argFault_le (of_decide_eq_true hwf)]; exact firstFault_singleton _
  | rdhex j => rw [commandChecks, argFault_le (of_decide_eq_true hwf)]; exact firstFault_singleton _
  | hexdig n => exact congrArg (firstFault [·]) (argFault_le (of_decide_eq_true hwf))

/-- A command answers with a fault exactly when its checks find it (R223). -/
theorem exec_reply_fault_iff {i : Instr} (h : exec i s = .next t) :
    t.reply = .fault c ↔ firstFault (commandChecks i s.phase) = some c := by
  obtain ⟨c', hc', rfl⟩ | ⟨hpass, rfl⟩ := exec_outcome h
  · simp [hc']
  · simp [hpass, commandEffect_reply_ne_fault]

/-- A word that decodes to a command faults by its phase check alone. -/
theorem reply_fault_iff_of_legal (hillegal : ¬ wordIllegal w) (hbad : ¬ wordBadArgument w)
    (h : performWord w s = .next t) : t.reply = .fault c ↔ phaseFault (wordOp w) s.phase = some c := by
  obtain ⟨i, hd, hop, -⟩ := exists_command_of_legal hillegal hbad
  obtain ⟨-, -, -, hwf⟩ := decode_command hd
  rw [exec_reply_fault_iff ((performWord_command s hd).symm.trans h), firstFault_commandChecks s.phase hwf, hop]

theorem reply_of_decode_fault (hd : decode w = .fault c) (h : performWord w s = .next t) : t.reply = .fault c := by
  obtain rfl := Host.Outcome.next.inj ((performWord_fault s hd).symm.trans h)
  exact s.raiseFault_reply c

/-- Settles O15: the first two lines are faults of decoding, the rest are the cases of `phaseFault`
(`reply_fault_iff_of_legal`). -/
theorem faultPriorityIsFixed : Obligations.FaultPriorityIsFixed := by
  intro w s
  obtain ⟨t, h⟩ := performWord_is_next w s
  refine ⟨t, h, ?_, fun ⟨c, hc⟩ => eq_raiseFault_of_reply h hc ▸ s.sameStream_raiseFault c⟩
  split_ifs with hillegal hbad hidle hfinal hdigest
  · exact reply_of_decode_fault (decode_of_wordIllegal hillegal) h
  · have hrsv : wordRsv w = 0 := by_contra fun hne => hillegal (.inr (.inl hne))
    exact reply_of_decode_fault (decode_of_wordBadArgument hrsv hbad) h
  · rw [reply_fault_iff_of_legal hillegal hbad h, phaseFault, if_pos hidle.1, hidle.2, streamFault_idle]
  · rw [reply_fault_iff_of_legal hillegal hbad h, phaseFault, if_pos hfinal.1, hfinal.2, streamFault_finalized]
  · rw [reply_fault_iff_of_legal hillegal hbad h, phaseFault, if_neg (by omega), if_pos hdigest.1,
      digestFault_of_ne_finalized hdigest.2]
  · have hactive : wordOp w = 2 ∨ wordOp w = 3 → s.phase = .active := fun hop => by
      cases hp : s.phase with
      | idle => exact absurd ⟨hop, hp⟩ hidle
      | active => rfl
      | finalized => exact absurd ⟨hop, hp⟩ hfinal
    have hfinalized : wordOp w = 6 ∨ wordOp w = 7 → s.phase = .finalized := fun hop =>
      by_contra fun hp => hdigest ⟨hop, hp⟩
    rintro ⟨c, hc⟩
    rw [reply_fault_iff_of_legal hillegal hbad h, phaseFault_eq_none hactive hfinalized] at hc
    exact Option.some_ne_none c hc.symm

end Sys2Proof.Machine
end

section
/-! The reset input (R260) and completion: no input of the one issuer leaves the engine stuck (R267). -/

namespace Sys2Proof.Machine

/-- Settles O10: the state after the reset input is `State.resetInput`, whose fields the laws of State give. -/
theorem resetInputSetsResetValues : Obligations.ResetInputSetsResetValues :=
  ⟨fun s => ⟨s.resetInput, perform_reset s, s.resetInput_cv, s.resetInput_len, s.resetInput_buflen, s.resetInput_phase,
      s.resetInput_err, s.resetInput_ecode⟩,
    rfl, rfl, rfl, rfl, rfl, rfl⟩

/-- Settles O12: a word raises its fault of decoding or is a command, which completes (`performWord_is_next`). -/
theorem everyCommandCompletes : Obligations.EveryCommandCompletes :=
  ⟨performWord_is_next, fun s => ⟨s.resetInput, perform_reset s⟩⟩

end Sys2Proof.Machine
end

section
/-! Decoding and encoding reverse each other (R70 to R74), from the fields of a word. -/

namespace Sys2Proof.Machine

/-- Settles O1: by `decode_encode`, from the fields of an encoded command. -/
theorem decodeReversesEncode : Obligations.DecodeReversesEncode := fun _ h => decode_encode h

/-- Settles O2: the word and the command's encoding have the same three fields. -/
theorem encodeReversesDecode : Obligations.EncodeReversesDecode := by
  intro w i h
  obtain ⟨hop, harg, hrsv, hwf⟩ := decode_command h
  obtain ⟨hop', hrsv', harg'⟩ := encode_fields i
  exact ⟨hwf, word_eq_of_fields (hop'.trans hop) (hrsv'.trans hrsv.symm) (harg'.trans harg)⟩

end Sys2Proof.Machine
end

section
/-! The invariant `State.inv` (R25, R28, R29, R36): it holds at reset, and each operation on the state keeps it. -/

namespace Sys2Proof.Machine

variable {s t : State}

/-- The reply and the port are no part of the invariant. -/
theorem State.inv.setReplyPort (h : s.inv) (r : Reply) (p : List HostInput) :
    State.inv { s with reply := r, port := p } := h

/-- A fault touches the record alone, and sets ERR and ECODE together. -/
theorem State.inv.raiseFault (h : s.inv) (c : FaultCode) : (s.raiseFault c).inv := by
  obtain ⟨hbuf, hmatch, hrecord, hidle⟩ := h
  refine ⟨hbuf, hmatch, ?_, hidle⟩
  show true = (s.raiseFault c).ecode.isSome
  rw [State.raiseFault_ecode]
  split
  · next herr => rw [← hrecord, herr]
  · rfl

theorem State.inv.startStream (h : s.inv) : s.startStream.inv := by
  obtain ⟨hbuf, -, hrecord, -⟩ := h
  exact ⟨hbuf, ⟨fun _ => by simp, nofun⟩, hrecord, nofun⟩

theorem State.inv.finish (h : s.inv) : s.finish.inv := by
  obtain ⟨hbuf, -, hrecord, -⟩ := h
  exact ⟨hbuf, ⟨fun hne => absurd rfl hne, fun _ => rfl⟩, hrecord, nofun⟩

/-- One byte is 8 bits: BUFLEN and LEN / 8 move on together, mod 64 (R25). -/
theorem buflen_succ_eq {n : BufIndex} {len : BitCount} (h : n = (len >>> 3).setWidth 6) :
    n + 1 = ((len + 8) >>> 3).setWidth 6 := by
  subst h
  apply BitVec.eq_of_toNat_eq
  simp only [Nat.cast_one, BitVec.ofNat_eq_ofNat, BitVec.toNat_add, BitVec.toNat_setWidth, BitVec.toNat_ushiftRight,
    Nat.shiftRight_eq_div_pow, BitVec.toNat_ofNat]
  omega

theorem State.inv.absorb (h : s.inv) (hp : s.phase = .active) (x : Byte) : (s.absorb x).inv := by
  obtain ⟨hbuf, hmatch, hrecord, -⟩ := h
  refine ⟨?_, ⟨fun _ => ?_, fun hfinal => by simp [hp] at hfinal⟩, ?_, fun hidle => by simp [hp] at hidle⟩
  · rw [State.absorb_buf]
    exact Memory.wf_write _ _ _ hbuf
  · rw [State.absorb_buflen, State.absorb_len]
    exact buflen_succ_eq (hmatch.1 (by simp [hp]))
  · rw [State.recordConsistent, State.absorb_err, State.absorb_ecode, hrecord]

theorem commandEffect_inv {i : Instr} (h : s.inv) (hpass : firstFault (commandChecks i s.phase) = none) :
    (commandEffect i s).inv := by
  cases i with
  | init => exact h.startStream.setReplyPort _ _
  | update d =>
    have hp : s.phase = .active := streamFault_eq_none.1 ((firstFault_singleton _).symm.trans hpass)
    exact (h.absorb hp d).setReplyPort _ _
  | finalize => exact h.finish.setReplyPort _ _
  | _ => exact h.setReplyPort _ _

theorem performWord_inv {w : PortWord} (h : s.inv) (hs : performWord w s = .next t) : t.inv := by
  obtain ⟨c, -, rfl⟩ | ⟨i, -, hexec⟩ := performWord_cases hs
  · exact h.raiseFault c
  · obtain ⟨c, -, rfl⟩ | ⟨hpass, rfl⟩ := exec_outcome hexec
    · exact h.raiseFault c
    · exact commandEffect_inv h hpass

/-- Settles O39: BUF lists nothing, and in IDLE every register is at its value of R36. -/
theorem resetStateIsGood : Obligations.ResetStateIsGood :=
  ⟨Memory.wf_nil, ⟨fun _ => rfl, nofun⟩, rfl, fun _ => ⟨rfl, rfl, rfl⟩⟩

/-- Settles O40: a step holds the state, performs a word (`performWord_inv`) or resets. -/
theorem stepKeepsInvariant : Obligations.StepKeepsInvariant := by
  intro s t h hs
  obtain ⟨-, rfl⟩ | ⟨w, rest, -, hperform⟩ | ⟨rest, -, rfl⟩ := step_cases hs
  · exact h
  · exact performWord_inv (h.setReplyPort s.reply rest) hperform
  · exact resetStateIsGood.setReplyPort .none rest

end Sys2Proof.Machine
end

section
/-! The step (R13, R61) by the head of the model's port. -/

namespace Sys2Proof.Machine

/-- Settles O9: the step is `step_cons`; a word is its command or raises its fault of decoding. -/
theorem stepPerformsNextInput : Obligations.StepPerformsNextInput := by
  intro s e rest hport
  have hstep := step_cons hport
  refine ⟨hstep, ?_, ?_⟩
  · rintro w i rfl hd
    exact hstep.trans (performWord_command _ hd)
  · rintro w c rfl hd
    exact hstep.trans (performWord_fault _ hd)

/-- Settles O11: by `step_nil`. -/
theorem idlePortHoldsState : Obligations.IdlePortHoldsState := fun _ => step_nil

/-- Settles O13: with no input, a word or a reset the step is a next state; each of the two other inputs is refused with its
own reason. -/
theorem stepStopsOnlyOnRefusedInputs : Obligations.StepStopsOnlyOnRefusedInputs := by
  intro s
  cases hport : s.port with
  | nil => simp [step_nil hport]
  | cons e rest =>
    rw [step_cons hport]
    cases e with
    | command w =>
      obtain ⟨t, ht⟩ := performWord_is_next w { s with port := rest }
      simp [ht]
    | reset => simp
    | foreignCommand w => simp
    | resetDuring w => simp

end Sys2Proof.Machine
end

section
/-! The rows of the opcode map (R73) as conditions on the fields of a word. -/

namespace Sys2Proof.Machine

variable {w : PortWord} {r : OpcodeRow}

/-- The mask of a row with an operand keeps OP and RSV. -/
theorem and_ff00_toNat (w : PortWord) : (w &&& 0xFF00#16).toNat = 256 * (w.toNat / 256) := by
  have hshift : w &&& 0xFF00#16 = (w >>> 8) <<< 8 := by
    ext k hk
    interval_cases k <;> simp
  have hw := w.isLt
  rw [hshift, BitVec.toNat_shiftLeft, BitVec.toNat_ushiftRight, Nat.shiftLeft_eq, Nat.shiftRight_eq_div_pow]
  omega

/-- "A word selects a row" (R73), by its fields: its OP is the row's, RSV is 0, and so is ARG where the row takes none. -/
theorem selects_iff (hr : r ∈ opcodeRows) :
    r.selects w = true ↔ wordOp w = r.op ∧ wordRsv w = 0 ∧ (0 < r.argMax ∨ wordArg w = 0) := by
  have hall : w &&& 0xFFFF#16 = w := BitVec.and_allOnes
  have hhigh := and_ff00_toNat w
  have hfields := word_fields w
  have harg := wordArg_lt w
  have hrsv : wordRsv w < 16 := Nat.mod_lt _ (by decide)
  simp only [opcodeRows, List.mem_cons, List.not_mem_nil, or_false] at hr
  obtain rfl | rfl | rfl | rfl | rfl | rfl | rfl | rfl | rfl := hr <;>
    simp only [OpcodeRow.selects, decide_eq_true_eq, ← BitVec.toNat_inj, hall, hhigh, BitVec.toNat_ofNat] <;> omega

theorem opcodeRow_eq_of_op_eq : ∀ r ∈ opcodeRows, ∀ q ∈ opcodeRows, r.op = q.op → r = q := by decide

/-- Each opcode up to 8 has a row, whose operand is that of R72; a row of no operand has one word. -/
theorem exists_opcodeRow : ∀ op < 9, ∃ r ∈ opcodeRows,
    r.op = op ∧ (0 < r.argMax ∨ op = 0 ∨ op = 1 ∨ op = 3 ∨ op = 4) := by decide

/-- A word that no row selects has a reserved opcode, a nonzero RSV, or an ARG where none is taken. -/
theorem wordIllegal_of_selects_none (h : ∀ r ∈ opcodeRows, r.selects w = false) : wordIllegal w := by
  by_contra hlegal
  simp only [not_or, not_and, not_le, not_not] at hlegal
  obtain ⟨hop, hrsv, hnoArg⟩ := hlegal
  obtain ⟨r, hr, hrop, hmax⟩ := exists_opcodeRow _ hop
  have hselects : r.selects w = true := (selects_iff hr).2 ⟨hrop.symm, hrsv, hmax.imp_right hnoArg⟩
  exact absurd hselects (by simp [h r hr])

/-- Within its row's range a selecting word is legal (R72, R73). -/
theorem legal_of_selects (hr : r ∈ opcodeRows) (h : r.selects w = true) (harg : wordArg w ≤ r.argMax) :
    ¬ wordIllegal w ∧ ¬ wordBadArgument w := by
  obtain ⟨hop, hrsv, hnoArg⟩ := (selects_iff hr).1 h
  simp only [opcodeRows, List.mem_cons, List.not_mem_nil, or_false] at hr
  obtain rfl | rfl | rfl | rfl | rfl | rfl | rfl | rfl | rfl := hr <;> simp only at hop hnoArg harg <;> omega

/-- Above its row's range a selecting word has an index out of range (R78). -/
theorem wordBadArgument_of_selects (hr : r ∈ opcodeRows) (h : r.selects w = true) (harg : r.argMax < wordArg w) :
    wordBadArgument w := by
  obtain ⟨hop, -, hnoArg⟩ := (selects_iff hr).1 h
  have hlt := wordArg_lt w
  simp only [opcodeRows, List.mem_cons, List.not_mem_nil, or_false] at hr
  obtain rfl | rfl | rfl | rfl | rfl | rfl | rfl | rfl | rfl := hr <;> simp only at hop hnoArg harg <;> omega

/-- Settles O4: rows differ in their opcode, and a row's words are legal or out of range by its largest ARG. -/
theorem opcodeRowsSelectCommands : Obligations.OpcodeRowsSelectCommands := by
  refine ⟨fun r hr q hq w hrw hqw => ?_, fun w h => decode_of_wordIllegal (wordIllegal_of_selects_none h),
    fun r hr w h => ?_⟩
  · obtain ⟨hrop, -⟩ := (selects_iff hr).1 hrw
    obtain ⟨hqop, -⟩ := (selects_iff hq).1 hqw
    exact opcodeRow_eq_of_op_eq r hr q hq (hrop.symm.trans hqop)
  · obtain ⟨hop, hrsv, -⟩ := (selects_iff hr).1 h
    split_ifs with harg
    · obtain ⟨hillegal, hbad⟩ := legal_of_selects hr h harg
      rw [← hop]
      exact exists_command_of_legal hillegal hbad
    · exact decode_of_wordBadArgument hrsv (wordBadArgument_of_selects hr h (not_le.1 harg))

end Sys2Proof.Machine
end

section
/-! The assembler (R82 to R85): every command it accepts has its operand in range. -/

namespace Sys2Proof.Machine

variable {letters : List Char}

theorem plainCommand_wellFormed {i : Instr} (h : plainCommand letters = some i) : i.wellFormed = true := by
  unfold plainCommand at h
  split_ifs at h <;> cases h <;> rfl

/-- An operand up to the largest value of its command is in the command's range (R72). -/
theorem operandCommand_wellFormed {top : Nat} {mk : Byte → Instr} (h : operandCommand letters = some (top, mk)) {b : Byte}
    (hb : b.toNat ≤ top) : (mk b).wellFormed = true := by
  unfold operandCommand at h
  split_ifs at h <;> cases h
  · rfl
  all_goals exact decide_eq_true hb

theorem operandByte_le {top : Nat} {t : Token} {b : Byte} (h : operandByte top t = some b) : b.toNat ≤ top := by
  unfold operandByte at h
  split at h
  · next n _ =>
    split_ifs at h with hn
    cases h
    exact (Nat.mod_le n (2 ^ 8)).trans hn
  · cases h

/-- Reads of each index stay in range while the count does. -/
theorem eachIndex_wellFormed {mk : Byte → Instr} {n : Nat} (hn : n ≤ 256)
    (hmk : ∀ b : Byte, b.toNat < n → (mk b).wellFormed = true) {i : Instr} (h : i ∈ eachIndex mk n) :
    i.wellFormed = true := by
  obtain ⟨k, hk, rfl⟩ := List.mem_map.1 h
  refine hmk _ ?_
  rw [BitVec.toNat_ofNat, Nat.mod_eq_of_lt ((List.mem_range.1 hk).trans_le hn)]
  exact List.mem_range.1 hk

theorem expand_wellFormed {p : Pseudo} {i : Instr} (h : i ∈ p.expand) : i.wellFormed = true := by
  cases p with
  | updates bytes =>
    obtain ⟨b, -, rfl⟩ := List.mem_map.1 h
    rfl
  | hash text =>
    simp only [Pseudo.expand, List.mem_append, List.mem_singleton, List.mem_map] at h
    obtain (rfl | ⟨b, -, rfl⟩) | rfl := h <;> rfl
  | rddigest => exact eachIndex_wellFormed (mk := .rddig) (by decide) (fun _ hb => decide_eq_true (Nat.le_of_lt_succ hb)) h
  | rdhexall => exact eachIndex_wellFormed (mk := .rdhex) (by decide) (fun _ hb => decide_eq_true (Nat.le_of_lt_succ hb)) h
  | rdlenall => exact eachIndex_wellFormed (mk := .rdlen) (by decide) (fun _ hb => decide_eq_true (Nat.le_of_lt_succ hb)) h

/-- A line is one plain command, one command with its operand, or the expansion of a pseudo-instruction. -/
theorem lineCommands_wellFormed {args : List Token} {cmds : List Instr} (h : lineCommands letters args = some cmds)
    {i : Instr} (hi : i ∈ cmds) : i.wellFormed = true := by
  unfold lineCommands at h
  split at h
  · next hplain =>
    cases h
    obtain rfl := List.mem_singleton.1 hi
    exact plainCommand_wellFormed hplain
  · next hoperand =>
    obtain ⟨b, hb, rfl⟩ := Option.map_eq_some_iff.1 h
    obtain rfl := List.mem_singleton.1 hi
    exact operandCommand_wellFormed hoperand (operandByte_le hb)
  · obtain ⟨p, -, rfl⟩ := Option.map_eq_some_iff.1 h
    exact expand_wellFormed hi
  · cases h

/-- Settles O8: the words are encodings of well-formed commands (`lineCommands_wellFormed`), which decode back. -/
theorem assemblerEmitsLegalWords : Obligations.AssemblerEmitsLegalWords := by
  intro line inputs h e he
  unfold assembleLine at h
  split at h
  · cases h
    cases he
  · split_ifs at h
    · cases h
      exact .inl (List.mem_singleton.1 he)
    · obtain ⟨cmds, hcmds, rfl⟩ := Option.map_eq_some_iff.1 h
      obtain ⟨i, hi, rfl⟩ := List.mem_map.1 he
      exact .inr ⟨_, i, rfl, decode_encode (lineCommands_wellFormed hcmds hi)⟩
  · cases h

end Sys2Proof.Machine
end

section
/-! The commands without side effects (R59): the reply is read by no command, and overwritten by each. -/

namespace Sys2Proof.Machine

variable {i : Instr} {s t : State}

theorem State.absorb_silent_setReply (s : State) (r : Reply) (x : Byte) :
    (State.absorb { s with reply := r } x).silent = (s.absorb x).silent := by
  unfold State.absorb
  dsimp only
  split <;> rfl

theorem commandEffect_setReply (i : Instr) (s : State) (r : Reply) :
    commandEffect i { s with reply := r } = commandEffect i s := by
  cases i with
  | update d => exact s.absorb_silent_setReply r d
  | _ => rfl

/-- What the port showed before is nothing to a command. -/
theorem exec_setReply (i : Instr) (s : State) (r : Reply) : exec i { s with reply := r } = exec i s := by
  rw [exec_eq_guarded, exec_eq_guarded, commandEffect_setReply]
  cases hc : firstFault (commandChecks i s.phase) with
  | none => rw [guarded_pass hc, guarded_pass hc]
  | some c => rw [guarded_raise hc, guarded_raise hc, State.raiseFault, State.raiseFault]

/-- The six commands write the reply alone. -/
theorem commandEffect_read
    (hi : i = .nop ∨ i = .rdstat ∨ (∃ k, i = .rdlen k) ∨ (∃ k, i = .rddig k) ∨ (∃ j, i = .rdhex j) ∨ (∃ n, i = .hexdig n)) :
    commandEffect i s = { s with reply := (commandEffect i s).reply } := by
  obtain rfl | rfl | ⟨k, rfl⟩ | ⟨k, rfl⟩ | ⟨j, rfl⟩ | ⟨n, rfl⟩ := hi <;> rfl

theorem eq_commandEffect_of_not_faulted (h : exec i s = .next t) (hn : ¬ t.faulted) : t = commandEffect i s := by
  obtain ⟨c, -, rfl⟩ | ⟨-, rfl⟩ := exec_outcome h
  · exact absurd ⟨c, s.raiseFault_reply c⟩ hn
  · rfl

/-- Settles O30: the state after the command differs in the reply alone (`commandEffect_read`), which no command reads
(`exec_setReply`). -/
theorem readsHaveNoSideEffects : Obligations.ReadsHaveNoSideEffects := by
  intro i s t hi h hn
  have ht : t = { s with reply := t.reply } := by
    rw [eq_commandEffect_of_not_faulted h hn]
    exact commandEffect_read hi
  have hsame : ∀ i', exec i' t = exec i' s := fun i' => by rw [ht, exec_setReply]
  exact ⟨ht, (hsame i).trans h, hsame⟩

end Sys2Proof.Machine
end

section
/-! What a command's result depends on (R35): two runs of a command whose checks are equal both fault alike or both take the
effect, and the effect depends on the columns marked R. -/

namespace Sys2Proof.Machine

variable {i : Instr} {s s' t t' : State}

theorem exec_outcome_both (hchecks : commandChecks i s.phase = commandChecks i s'.phase)
    (h : exec i s = .next t) (h' : exec i s' = .next t') :
    (∃ c, t = s.raiseFault c ∧ t' = s'.raiseFault c) ∨ (t = commandEffect i s ∧ t' = commandEffect i s') := by
  obtain ⟨c, hc, rfl⟩ | ⟨hc, rfl⟩ := exec_outcome h <;> rw [hchecks] at hc
  · exact .inl ⟨c, rfl, Host.Outcome.next.inj (h'.symm.trans (exec_raise hc))⟩
  · exact .inr ⟨rfl, Host.Outcome.next.inj (h'.symm.trans (exec_pass hc))⟩

theorem exec_reply_congr (hchecks : commandChecks i s.phase = commandChecks i s'.phase)
    (heffect : (commandEffect i s).reply = (commandEffect i s').reply)
    (h : exec i s = .next t) (h' : exec i s' = .next t') : t.reply = t'.reply := by
  obtain ⟨c, rfl, rfl⟩ | ⟨rfl, rfl⟩ := exec_outcome_both hchecks h h'
  · rfl
  · exact heffect

theorem exec_sameStream_congr (hsame : s.sameStream s') (hchecks : commandChecks i s.phase = commandChecks i s'.phase)
    (heffect : (commandEffect i s).sameStream (commandEffect i s'))
    (h : exec i s = .next t) (h' : exec i s' = .next t') : t.sameStream t' := by
  obtain ⟨c, rfl, rfl⟩ | ⟨rfl, rfl⟩ := exec_outcome_both hchecks h h'
  · exact hsame
  · exact heffect

theorem State.sameStream.phase_eq (h : s.sameStream s') : s.phase = s'.phase := by
  obtain ⟨-, -, -, -, hphase⟩ := h
  exact hphase

theorem State.sameStream.absorb (h : s.sameStream s') (x : Byte) : (s.absorb x).sameStream (s'.absorb x) := by
  obtain ⟨hcv, hlen, hbuf, hbuflen, hphase⟩ := h
  refine ⟨?_, by simp [hlen], by simp [hbuf, hbuflen], by simp [hbuflen], by simpa using hphase⟩
  rw [State.absorb_cv, State.absorb_cv, hcv, hbuf, hbuflen]

theorem State.sameStream.finish (h : s.sameStream s') : s.finish.sameStream s'.finish := by
  obtain ⟨hcv, hlen, hbuf, hbuflen, -⟩ := h
  refine ⟨?_, hlen, hbuf, rfl, rfl⟩
  rw [State.finish_cv, State.finish_cv, State.tail, State.tail, hcv, hlen, hbuf, hbuflen]

theorem State.status_congr (hbuflen : s.buflen = s'.buflen) (hphase : s.phase = s'.phase) (herr : s.err = s'.err)
    (hecode : s.ecode = s'.ecode) : s.status = s'.status := by
  rw [State.status, State.status, hbuflen, hphase, herr, hecode]

/-- Settles O31: for each command the equal columns give equal checks and an equal effect. -/
theorem resultsDependOnMatrixColumns : Obligations.ResultsDependOnMatrixColumns := by
  intro s s' t t'
  refine ⟨fun n => exec_reply_congr rfl rfl, fun k hlen => exec_reply_congr rfl ?_,
    fun k hcv hphase => exec_reply_congr (congrArg _ hphase) ?_, fun j hcv hphase => exec_reply_congr (congrArg _ hphase) ?_,
    fun hbuflen hphase herr hecode => exec_reply_congr rfl ?_, fun h h' => ?_, fun d hsame h h' => ?_, fun hsame h h' => ?_⟩
  · simp only [commandEffect, hlen, State.respond_reply]
  · simp only [commandEffect, hcv, State.respond_reply]
  · simp only [commandEffect, hcv, State.respond_reply]
  · simp only [commandEffect, State.status_congr hbuflen hphase herr hecode, State.respond_reply]
  · obtain rfl := Host.Outcome.next.inj ((execInit_eq s).symm.trans h)
    obtain rfl := Host.Outcome.next.inj ((execInit_eq s').symm.trans h')
    exact ⟨rfl, rfl, rfl, rfl, rfl⟩
  · have hchecks := congrArg (commandChecks (.update d)) hsame.phase_eq
    exact ⟨exec_sameStream_congr hsame hchecks (hsame.absorb d) h h',
      exec_reply_congr hchecks (by simp only [commandEffect, State.silent_reply]) h h'⟩
  · have hchecks := congrArg (commandChecks .finalize) hsame.phase_eq
    exact ⟨exec_sameStream_congr hsame hchecks hsame.finish h h',
      exec_reply_congr hchecks (by simp only [commandEffect, State.silent_reply]) h h'⟩

end Sys2Proof.Machine
end

section
/-! Which commands write the stream registers (R35). -/

namespace Sys2Proof.Machine

variable {i : Instr} {w : PortWord} {s t : State}

@[simp] theorem commandEffect_port (i : Instr) (s : State) : (commandEffect i s).port = s.port := by
  cases i <;> simp [commandEffect]

theorem performWord_port (h : performWord w s = .next t) : t.port = s.port := by
  obtain ⟨c, rfl⟩ | ⟨i, rfl⟩ := performWord_outcome h
  · exact s.raiseFault_port c
  · exact commandEffect_port i s

/-- The stream registers are as they were, or the command is one of the three that write them, the last two in ACTIVE. -/
theorem exec_sameStream_or (h : exec i s = .next t) :
    s.sameStream t ∨ i = .init ∨ (s.phase = .active ∧ ((i = .finalize ∧ t = s.finish.silent)
      ∨ ∃ d, i = .update d ∧ t = (s.absorb d).silent)) := by
  obtain ⟨c, -, rfl⟩ | ⟨hpass, rfl⟩ := exec_outcome h
  · exact .inl (s.sameStream_raiseFault c)
  · have hactive : commandChecks i s.phase = [streamFault s.phase] → s.phase = .active := fun hi =>
      streamFault_eq_none.1 ((firstFault_singleton _).symm.trans (hi ▸ hpass))
    cases i with
    | init => exact .inr (.inl rfl)
    | update d => exact .inr (.inr ⟨hactive rfl, .inr ⟨d, rfl, rfl⟩⟩)
    | finalize => exact .inr (.inr ⟨hactive rfl, .inl ⟨rfl, rfl⟩⟩)
    | _ => exact .inl ⟨rfl, rfl, rfl, rfl, rfl⟩

/-- Before the 64th byte of a block UPDATE leaves CV. -/
theorem State.buflen_of_absorb_cv_ne {d : Byte} (h : (s.absorb d).cv ≠ s.cv) : s.buflen = 63 := by
  by_contra hne
  exact h (State.absorb_not_last d fun h63 => hne (BitVec.eq_of_toNat_eq h63)).1

/-- Settles O32: only the three commands of `exec_sameStream_or` change a stream register, and no effect changes the port. -/
theorem registersChangeOnlyByTheirCommands : Obligations.RegistersChangeOnlyByTheirCommands := by
  intro w s t h
  have hport := performWord_port h
  obtain ⟨c, -, rfl⟩ | ⟨i, hd, hexec⟩ := performWord_cases h
  · simp
  · obtain ⟨hcv, hlen, hbuf, hbuflen, -⟩ | rfl | ⟨hp, ⟨rfl, rfl⟩ | ⟨d, rfl, rfl⟩⟩ := exec_sameStream_or hexec
    · simp [hcv, hlen, hbuf, hbuflen, hport]
    · obtain rfl := Host.Outcome.next.inj ((execInit_eq s).symm.trans hexec)
      simp [hd]
    · simp [hd, hp]
    · refine ⟨fun hcv => .inl ⟨hp, .inr ⟨d, hd, State.buflen_of_absorb_cv_ne hcv⟩⟩, ?_⟩
      simp [hd, hp]

end Sys2Proof.Machine
end

section
/-! Several engines on one platform (R64): an input changes the engine it is issued to and no other. -/

namespace Sys2Proof.Machine

theorem Platform.perform_getElem? (p : Platform) (j k : Nat) (e : HostInput) :
    (p.perform j e)[k]? = if j = k then p[k]?.map (advance · e) else p[k]? := by
  rw [Platform.perform, List.getElem?_modify]
  split
  · rfl
  · exact Option.map_id'

theorem inputsOf_cons (k : Nat) (x : Nat × HostInput) (inputs : List (Nat × HostInput)) :
    inputsOf k (x :: inputs) = if x.1 = k then x.2 :: inputsOf k inputs else inputsOf k inputs := by
  unfold inputsOf
  rw [List.filter_cons]
  by_cases h : x.1 = k <;> simp [h]

/-- Settles O42: by induction on the interleaving; the first input is the engine's own or leaves it. -/
theorem enginesAreIsolated : Obligations.EnginesAreIsolated := by
  intro p inputs k
  induction inputs generalizing p with
  | nil => exact Option.map_id'.symm
  | cons x inputs ih =>
    have hfirst : p.schedule (x :: inputs) = (p.perform x.1 x.2).schedule inputs := rfl
    rw [hfirst, ih, Platform.perform_getElem?, inputsOf_cons]
    split
    · rw [Option.map_map]; rfl
    · rfl

end Sys2Proof.Machine
end

section
/-! Sample words of the opcode map (R73). -/

namespace Sys2Proof.Machine

/-- Settles O7: the fields of each word are computed. -/
theorem sampleWordsDecode : Obligations.SampleWordsDecode := by
  unfold Obligations.SampleWordsDecode
  decide

end Sys2Proof.Machine
end

section
/-! The compression transform bit by bit (R141, R142), the rotation (R10) and the ROM tables (R147, R148). -/

namespace Sys2Proof.Machine

/-- Settles O37: the tables are finite. -/
theorem romScheduleIsPermutation : Obligations.RomScheduleIsPermutation := by
  unfold Obligations.RomScheduleIsPermutation
  decide

/-- Settles O35: each stage is built of bitwise operations; their tables agree for every value of the three bits. -/
theorem stageFunctionsAreBitwise : Obligations.StageFunctionsAreBitwise := by
  intro i k b c d _ hk
  simp only [stageFn, apply_ite (BitVec.getLsbD · k), BitVec.getLsbD_or, BitVec.getLsbD_and, BitVec.getLsbD_xor,
    BitVec.getLsbD_not, hk, decide_true, Bool.true_and]
  generalize b.getLsbD k = x, c.getLsbD k = y, d.getLsbD k = z
  refine ite_congr rfl (fun _ => ?_) fun _ => ite_congr rfl (fun _ => ?_) fun _ => ite_congr rfl (fun _ => ?_) fun _ => ?_
  all_goals
    revert x y z
    decide

/-- Settles O36: a bit is moved by the left shift, or past bit 31 by the right shift; the other shift gives 0 there. -/
theorem rotationIsCircular : Obligations.RotationIsCircular := by
  intro x amount k hlow hhigh hk
  rw [rotl32, BitVec.getLsbD_or, BitVec.getLsbD_shiftLeft, BitVec.getLsbD_ushiftRight]
  by_cases hwrap : k + amount < 32
  · have hright : x.getLsbD (32 - amount + (k + amount)) = false := BitVec.getLsbD_of_ge x _ (by omega)
    simp [Nat.mod_eq_of_lt hwrap, hwrap, hright]
  · have hmod : (k + amount) % 32 = k + amount - 32 := by omega
    have hsource : 32 - amount + (k + amount - 32) = k := by omega
    simp [hmod, hsource, show k + amount - 32 < amount by omega]

end Sys2Proof.Machine
end

section
/-! The two forms of the rounds (R143): after `n` rounds the permuted registers are the unrolled ones, moved on `n` times. -/

namespace Sys2Proof.Machine

/-- The permutation of the registers in one round (R143): what is A becomes B, B becomes C, C becomes D and D becomes A. -/
def CV.permute (w : CV) : CV := ⟨w.d, w.a, w.b, w.c⟩

theorem CV.permute_isPeriodicPt (w : CV) : Function.IsPeriodicPt CV.permute 4 w := rfl

/-- One round in both forms. Round `i` of the unrolled form writes the register that the permutation has brought to A. -/
theorem roundStep_permute (m : List Word) (w : CV) (i : Nat) :
    roundStep m (CV.permute^[i] w) i = CV.permute^[i + 1] (unrolledStep m w i) := by
  rw [← w.permute_isPeriodicPt.iterate_mod_apply i, ← (unrolledStep m w i).permute_isPeriodicPt.iterate_mod_apply (i + 1)]
  obtain h | h | h | h : i % 4 = 0 ∨ i % 4 = 1 ∨ i % 4 = 2 ∨ i % 4 = 3 := by omega
  · rw [h, show (i + 1) % 4 = 1 by omega, unrolledStep, if_pos h]
    rfl
  · rw [h, show (i + 1) % 4 = 2 by omega, unrolledStep, if_neg (by omega), if_pos h]
    rfl
  · rw [h, show (i + 1) % 4 = 3 by omega, unrolledStep, if_neg (by omega), if_neg (by omega), if_pos h]
    rfl
  · rw [h, show (i + 1) % 4 = 0 by omega, unrolledStep, if_neg (by omega), if_neg (by omega), if_neg (by omega)]
    rfl

theorem rounds_permute (m : List Word) (w : CV) (n : Nat) :
    (List.range n).foldl (roundStep m) w = CV.permute^[n] ((List.range n).foldl (unrolledStep m) w) := by
  induction n with
  | zero => rfl
  | succ n ih => rw [List.range_succ, List.foldl_append, List.foldl_append, ih]; exact roundStep_permute m _ n

/-- Settles O38: 64 is a multiple of the permutation's period. -/
theorem unrolledRoundsAgree : Obligations.UnrolledRoundsAgree := by
  intro cv block
  rw [compress, rounds, rounds_permute, compressUnrolled, ← (CV.permute_isPeriodicPt _).iterate_mod_apply 64]
  rfl

end Sys2Proof.Machine
end

section
/-! The source's `md5_update` (R101): updates with two chunks are one update with both, so the split of a file is not
seen. -/

namespace Sys2Proof.Machine

variable {st : HashState}

theorem md5Update_pending_lt (st : HashState) (bytes : List Byte) : (md5Update st bytes).pending.length < 64 :=
  consumeBlocks_rest_lt _ _ _ le_rfl

theorem md5Update_nil (h : st.pending.length < 64) : md5Update st [] = st := by
  simp [md5Update, consumeBlocks_short _ _ _ h]

theorem md5Update_append (st : HashState) (xs ys : List Byte) :
    md5Update (md5Update st xs) ys = md5Update st (xs ++ ys) := by
  have hblocks := consumeBlocks_append (st.pending ++ xs).length st.chaining (st.pending ++ xs) ys le_rfl
  have hlength : st.totalLength + 8 * BitVec.ofNat 64 xs.length + 8 * BitVec.ofNat 64 ys.length
      = st.totalLength + 8 * BitVec.ofNat 64 (xs ++ ys).length := by
    rw [List.length_append, BitVec.ofNat_add, BitVec.mul_add, BitVec.add_assoc]
  simp only [md5Update, hlength, ← List.append_assoc, hblocks]

theorem foldl_md5Update (h : st.pending.length < 64) (chunks : List (List Byte)) :
    chunks.foldl md5Update st = md5Update st chunks.flatten := by
  induction chunks generalizing st with
  | nil => exact (md5Update_nil h).symm
  | cons c chunks ih => rw [List.foldl_cons, ih (md5Update_pending_lt st c), md5Update_append, List.flatten_cons]

/-- Settles O44: by `foldl_md5Update` from the initial HashState. -/
theorem chunkingIsTransparent : Obligations.ChunkingIsTransparent := fun chunks =>
  congrArg md5Finalize (foldl_md5Update (by decide) chunks)

end Sys2Proof.Machine
end

section
/-! UPDATE per byte and the source's `md5_update` on a chunk (R101, R102): the engine's HashState. -/

namespace Sys2Proof.Machine

variable {s : State}

/-- The state after the bytes are absorbed one by one, each with no response. -/
def State.absorbAll (s : State) (bytes : List Byte) : State := bytes.foldl (fun t d => (t.absorb d).silent) s

theorem State.absorbAll_cons (s : State) (d : Byte) (bytes : List Byte) :
    s.absorbAll (d :: bytes) = (s.absorb d).silent.absorbAll bytes := rfl

/-- The reply is no part of the HashState. -/
theorem State.silent_hashState (s : State) : s.silent.hashState = s.hashState := rfl

theorem State.startStream_hashState (s : State) : s.startStream.silent.hashState = md5Init := rfl

/-- What absorbing bytes leaves. -/
theorem State.absorbAll_frame (s : State) (bytes : List Byte) :
    (s.absorbAll bytes).phase = s.phase ∧ (s.absorbAll bytes).err = s.err ∧ (s.absorbAll bytes).ecode = s.ecode
      ∧ (s.absorbAll bytes).port = s.port := by
  induction bytes generalizing s with
  | nil => exact ⟨rfl, rfl, rfl, rfl⟩
  | cons d bytes ih => simpa [State.absorbAll_cons] using ih (s.absorb d).silent

theorem State.pending_length_lt (s : State) : s.hashState.pending.length < 64 := by
  rw [State.hashState, Memory.length_slice]
  exact s.buflen.isLt

/-- One whole block is compressed and nothing is left. -/
theorem consumeBlocks_block (cv : CV) {q : List Byte} (h : q.length = 64) : consumeBlocks 64 cv q = (compress cv q, []) := by
  rw [consumeBlocks, if_pos h.ge, List.take_of_length_le h.le, List.drop_of_length_le h.le,
    consumeBlocks_short _ _ _ (by simp)]

/-- One byte: a block is full exactly at BUFLEN = 63 (R102). -/
theorem State.absorb_hashState (s : State) (d : Byte) : (s.absorb d).hashState = md5Update s.hashState [d] := by
  have hwrite := s.buf.slice_write s.buflen d
  by_cases hlast : s.buflen.toNat = 63
  · obtain ⟨hcv, hbuflen⟩ := State.absorb_last d hlast
    have hlength : (s.buf.slice 63 ++ [d]).length = 64 := by simp
    simp only [State.hashState, md5Update, hcv, hbuflen, State.absorb_len, hlast, hlength, consumeBlocks_block _ hlength]
    rfl
  · obtain ⟨hcv, hbuflen⟩ := State.absorb_not_last d hlast
    have hshort : (s.buf.slice s.buflen.toNat ++ [d]).length < 64 := by
      rw [List.length_append, Memory.length_slice, List.length_singleton]
      omega
    simp only [State.hashState, md5Update, hcv, hbuflen, State.absorb_len, State.absorb_buf, hwrite,
      consumeBlocks_short _ _ _ hshort]
    rfl

theorem State.absorbAll_hashState (s : State) (bytes : List Byte) :
    (s.absorbAll bytes).hashState = md5Update s.hashState bytes := by
  induction bytes generalizing s with
  | nil => exact (md5Update_nil s.pending_length_lt).symm
  | cons d bytes ih =>
    rw [State.absorbAll_cons, ih, State.silent_hashState, State.absorb_hashState, md5Update_append,
      List.singleton_append]

/-- The word of a well-formed command is performed as the command. -/
theorem perform_encode {i : Instr} (s : State) (h : i.wellFormed = true) : perform (.command (encode i)) s = exec i s :=
  performWord_command s (decode_encode h)

theorem perform_update (d : Byte) (hp : s.phase = .active) :
    perform (.command (encode (.update d))) s = .next (s.absorb d).silent :=
  (perform_encode s rfl).trans (exec_update_of_active d hp)

theorem performAll_updates (bytes : List Byte) (hp : s.phase = .active) :
    performAll (issueAll (bytes.map .update)) s = .next (s.absorbAll bytes) := by
  induction bytes generalizing s with
  | nil => rfl
  | cons d bytes ih =>
    have hp' : (s.absorb d).silent.phase = .active := by simpa using hp
    rw [List.map_cons, issueAll, List.map_cons, performAll, perform_update d hp]
    exact ih hp'

/-- Settles O43: the run ends in `State.absorbAll`, whose HashState is `State.absorbAll_hashState`. -/
theorem updatesRefineSource : Obligations.UpdatesRefineSource := by
  intro bytes s hp
  obtain ⟨hphase, herr, hecode, hport⟩ := s.absorbAll_frame bytes
  exact ⟨_, performAll_updates bytes hp, s.absorbAll_hashState bytes, hphase.trans hp, herr, hecode, hport⟩

end Sys2Proof.Machine
end

section
/-! FINALIZE and the source's `md5_finalize` (R104 to R107). -/

namespace Sys2Proof.Machine

/-- The first block of a tail, then the rest (R106). -/
theorem compressBlocks_cons (cv : CV) {l : List Byte} (h : 64 ≤ l.length) :
    compressBlocks cv l = compressBlocks (compress cv (l.take 64)) (l.drop 64) := by
  have hcount : l.length / 64 = (l.length - 64) / 64 + 1 := by omega
  rw [compressBlocks, compressBlocks, List.length_drop, hcount, List.range_succ_eq_map, List.foldl_cons, List.foldl_map]
  simp only [Nat.mul_zero, List.drop_zero, List.drop_drop, Nat.mul_succ, Nat.add_comm]

theorem compressBlocks_short (cv : CV) {l : List Byte} (h : l.length < 64) : compressBlocks cv l = cv := by
  rw [compressBlocks, Nat.div_eq_of_lt h]
  rfl

/-- The loop over the tail's blocks is the source's. -/
theorem consumeBlocks_fst (turns : Nat) (cv : CV) (l : List Byte) (h : l.length ≤ turns) :
    (consumeBlocks turns cv l).1 = compressBlocks cv l := by
  induction turns generalizing cv l with
  | zero => exact (compressBlocks_short cv (by omega)).symm
  | succ turns ih =>
    rw [consumeBlocks]
    split
    · next hl => rw [ih _ _ (by rw [List.length_drop]; omega), compressBlocks_cons cv hl]
    · next hl => exact (compressBlocks_short cv (not_le.1 hl)).symm

/-- The padding found as the smallest is R104's closed form. -/
theorem smallestPadding_eq : ∀ n < 64, smallestPadding n = padZeros n := by decide

theorem digest_finish_cv (s : State) : digest s.finish.cv = md5Finalize s.hashState := by
  have hpadding : smallestPadding s.hashState.pending.length = padZeros s.buflen.toNat := by
    rw [smallestPadding_eq _ s.pending_length_lt, State.hashState, Memory.length_slice]
  rw [md5Finalize, consumeBlocks_fst _ _ _ le_rfl, hpadding, State.finish_cv]
  rfl

theorem perform_finalize {s : State} (hp : s.phase = .active) :
    perform (.command (encode .finalize)) s = .next s.finish.silent :=
  (perform_encode s rfl).trans (exec_of_active rfl hp)

/-- Settles O45: FINALIZE in ACTIVE takes its effect, by `digest_finish_cv`. -/
theorem finalizeRefinesSource : Obligations.FinalizeRefinesSource := fun s hp =>
  ⟨_, exec_of_active rfl hp, digest_finish_cv s⟩

end Sys2Proof.Machine
end

section
/-! The host protocol for one file (R272) and what is observed of it (R270). -/

namespace Sys2Proof.Machine

variable {s t : State}

/-- An input with no response adds nothing to the observation. -/
theorem observe_of_silent {e : HostInput} (rest : List HostInput) (h : perform e s = .next t) (ht : t.reply = .none) :
    observe (e :: rest) s = observe rest t := by
  rw [observe, h]
  simp only [ht, Reply.words, List.nil_append]
  exact Option.map_id'

theorem observe_of_response {e : HostInput} {v : PortWord} {o : Observation} (rest : List HostInput)
    (h : perform e s = .next (s.respond v)) (ho : observe rest (s.respond v) = some o) :
    observe (e :: rest) s = some { o with responses := v :: o.responses } := by
  rw [observe, h]
  simp only [ho]
  rfl

theorem observe_updates (bytes : List Byte) (rest : List HostInput) (hp : s.phase = .active) :
    observe (issueAll (bytes.map .update) ++ rest) s = observe rest (s.absorbAll bytes) := by
  induction bytes generalizing s with
  | nil => rfl
  | cons d bytes ih =>
    have hp' : (s.absorb d).silent.phase = .active := by simpa using hp
    exact (observe_of_silent _ (perform_update d hp) rfl).trans (ih hp')

theorem perform_rdhex {j : Nat} (hj : j < 32) (hp : s.phase = .finalized) :
    perform (.command (encode (.rdhex (BitVec.ofNat 8 j)))) s = .next (s.respond (zext16 (hexChar s.cv j))) := by
  have hmod : (BitVec.ofNat 8 j).toNat = j := by rw [BitVec.toNat_ofNat]; omega
  have hrange : (BitVec.ofNat 8 j).toNat ≤ 31 := by omega
  rw [perform_encode (i := .rdhex _) s (decide_eq_true hrange), exec, execRdhex_eq, if_pos hrange, if_pos hp, hmod]

/-- Reads of hex characters of the digest respond with them, record nothing and stay in FINALIZED. -/
theorem observe_rdhex {js : List Nat} (hjs : ∀ j ∈ js, j < 32) (hp : s.phase = .finalized) :
    ∃ o, observe (issueAll (js.map fun j => .rdhex (BitVec.ofNat 8 j))) s = some o
      ∧ o.responses = js.map (fun j => zext16 (hexChar s.cv j))
      ∧ o.faulted = s.err ∧ o.firstFault = s.ecode ∧ o.final.phase = .finalized := by
  induction js generalizing s with
  | nil => exact ⟨_, rfl, rfl, rfl, rfl, hp⟩
  | cons j js ih =>
    obtain ⟨hj, hjs⟩ := List.forall_mem_cons.1 hjs
    obtain ⟨o, ho, hresponses, hrecord⟩ := ih hjs (s := s.respond (zext16 (hexChar s.cv j))) hp
    exact ⟨_, observe_of_response _ (perform_rdhex hj hp) ho, congrArg (_ :: ·) hresponses, hrecord⟩

/-- The 32 reads of R203 give `to_hex` of the digest (R201). -/
theorem map_hexChar_eq_toHex (cv : CV) : (List.range 32).map (hexChar cv) = toHex (digest cv) := by
  apply List.ext_getElem?
  intro j
  by_cases hj : j < 32
  · rw [toHex_digest_getElem? cv hj, List.getElem?_map, List.getElem?_range hj, Option.map_some]
  · rw [List.getElem?_eq_none (by simpa using hj), List.getElem?_eq_none (by rw [length_toHex, length_digest]; omega)]

theorem fileProtocol_eq (chunks : List (List Byte)) :
    issueAll (fileProtocol chunks) = .command (encode .init) :: (issueAll (chunks.flatten.map .update)
      ++ .command (encode .finalize) :: issueAll (eachIndex .rdhex 32)) := by
  simp [fileProtocol, Pseudo.expand, issueAll, List.map_flatten, List.flatMap]

/-- Settles O46: INIT, the bytes and FINALIZE give no response and leave the digest of the joined chunks; the reads respond
with its characters. -/
theorem fileProtocolYieldsHexDigest : Obligations.FileProtocolYieldsHexDigest := by
  intro chunks s
  have hinit : perform (.command (encode .init)) s = .next s.startStream.silent := perform_encode s rfl
  obtain ⟨hphase, herr, hecode, -⟩ := s.startStream.silent.absorbAll_frame chunks.flatten
  have hdigest : digest (s.startStream.silent.absorbAll chunks.flatten).finish.cv = md5 chunks.flatten := by
    rw [digest_finish_cv, State.absorbAll_hashState, State.startStream_hashState, md5]
  obtain ⟨o, ho, hresponses, hfaulted, hfirst, hfinal⟩ := observe_rdhex (js := List.range 32)
    (s := (s.startStream.silent.absorbAll chunks.flatten).finish.silent) (fun _ => List.mem_range.1) rfl
  refine ⟨o, ?_, ?_, hfaulted.trans herr, hfirst.trans hecode, hfinal⟩
  · rw [fileProtocol_eq, observe_of_silent _ hinit rfl, observe_updates _ _ rfl,
      observe_of_silent _ (perform_finalize hphase) rfl]
    exact ho
  · rw [hresponses, ← hdigest, ← map_hexChar_eq_toHex, List.map_map]
    rfl

end Sys2Proof.Machine
end
